-- ==== Sys2Proof/Word.lean ====
section
/-! DEFINITION. The one word size of this hardware and the index of its register file. -/

namespace Sys2Proof

/-- The value of a register, a memory cell, an operand byte or the flags register: an unsigned integer 0 to 255
(R7, R20, R50). -/
abbrev Byte := BitVec 8

/-- The index of a general register, 0 to 7 (R20). An operand byte becomes one only through `checkReg` (R194). -/
abbrev RegIdx := Fin 8

/-- Register 7, the stack pointer (R23). -/
abbrev sp : RegIdx := 7

end Sys2Proof
end

