-- ==== Sys2Proof/Syntax.lean ====
section
/-! DEFINITION. The twelve instructions of the opcode table (R86), with their operand bytes whole (R84, R85). -/

namespace Sys2Proof

/-- One constructor per row of the opcode table (R86). A register operand is the operand byte as it stands, 0 to 255:
the hardware does not mask it, and a value above 7 is found by the instruction's own check (R85, R194). -/
inductive Instr where
  /-- HLT, 0x01 (R130). -/
  | hlt
  /-- LDI reg, imm8, 0x82 (R140). -/
  | ldi (a i : Byte)
  /-- PRN reg, 0x47 (R131). -/
  | prn (a : Byte)
  /-- ST regA, regB, 0x84 (R141). -/
  | st (a b : Byte)
  /-- PUSH reg, 0x45 (R152). -/
  | push (a : Byte)
  /-- POP reg, 0x46 (R153). -/
  | pop (a : Byte)
  /-- CALL reg, 0x50 (R154). -/
  | call (a : Byte)
  /-- RET, 0x11 (R155). -/
  | ret
  /-- ADD regA, regB, 0xA0 (R171). -/
  | add (a b : Byte)
  /-- MUL regA, regB, 0xA2 (R172). -/
  | mul (a b : Byte)
  /-- AND regA, regB, 0xA8 (R173). -/
  | and (a b : Byte)
  /-- CMP regA, regB, 0xA7 (R174). -/
  | cmp (a b : Byte)
  deriving DecidableEq, Repr

end Sys2Proof
end

