-- ==== Sys2Proof/WellFormed.lean ====
section
/-! DEFINITION. Which instructions keep software's obligation that register operand bytes are 0 to 7 (R233). An
instruction that does not is still decoded and run: it raises its fault (R194). -/

namespace Sys2Proof

/-- The operand bytes of an instruction that name registers, in the order they are checked (R84, R118). The immediate
of LDI is not among them (R140). -/
def Instr.regOperands : Instr → List Byte
  | .hlt => []
  | .ldi a _ => [a]
  | .prn a => [a]
  | .st a b => [a, b]
  | .push a => [a]
  | .pop a => [a]
  | .call a => [a]
  | .ret => []
  | .add a b => [a, b]
  | .mul a b => [a, b]
  | .and a b => [a, b]
  | .cmp a b => [a, b]

/-- Every register operand byte is 0 to 7 (R233). -/
def Instr.wellFormed (i : Instr) : Bool :=
  i.regOperands.all fun a => decide (a.toNat < 8)

end Sys2Proof
end

