-- ==== Sys2Proof/Decode.lean ====
section
/-! DEFINITION. The decoder (R80 to R91, R112), total on any bytes and refusing by name, and the encoder after it. -/

namespace Sys2Proof

/-- The operand count n = op[7:6] (R81). -/
def operandCount (op : Byte) : Nat := (op.extractLsb 7 6).toNat

/-- The sets-PC flag s = op[4] (R82). -/
def setsPc (op : Byte) : Bool := op.getLsbD 4

/-- The twelve opcodes of the table, in the source's order (R86). -/
def supportedOpcodes : List Byte := [0x01, 0x82, 0x47, 0x84, 0x45, 0x46, 0x50, 0x11, 0xA0, 0xA2, 0xA8, 0xA7]

/-- What the dispatch table gives for an opcode: how its operand bytes a and b become an instruction (R112, R117). -/
abbrev Handler := Byte → Byte → Instr

/-- The dispatch table: an exact match of the whole opcode byte against the twelve values of R86; `none` is
"no handler" (R87, R88, R112). -/
def handlerOf (op : Byte) : Option Handler :=
  match op with
  | 0x01 => some fun _ _ => .hlt
  | 0x82 => some fun a i => .ldi a i
  | 0x47 => some fun a _ => .prn a
  | 0x84 => some fun a b => .st a b
  | 0x45 => some fun a _ => .push a
  | 0x46 => some fun a _ => .pop a
  | 0x50 => some fun a _ => .call a
  | 0x11 => some fun _ _ => .ret
  | 0xA0 => some fun a b => .add a b
  | 0xA2 => some fun a b => .mul a b
  | 0xA8 => some fun a b => .and a b
  | 0xA7 => some fun a b => .cmp a b
  | _ => none

/-- The operand byte a handler is given for an operand its format does not have; no handler of the table uses it (R84). -/
def noOperand : Byte := 0

/-- The decoder over any source of bytes: read the opcode (byte 0), look it up, and only then read exactly
n = op[7:6] operand bytes, byte 1 before byte 2 (R111 to R114, in the order of R117). A failing read is passed on; an
opcode without a handler is refused as `unsupported op`, with no operand read (R113). -/
def decodeFrom {ε : Type} (read : Nat → Except ε Byte) (unsupported : Byte → ε) : Except ε Instr :=
  match read 0 with
  | .error e => .error e
  | .ok op =>
    match handlerOf op with
    | none => .error (unsupported op)
    | some handler =>
      match (if 1 ≤ operandCount op then read 1 else .ok noOperand) with
      | .error e => .error e
      | .ok a =>
        match (if operandCount op = 2 then read 2 else .ok noOperand) with
        | .error e => .error e
        | .ok b => .ok (handler a b)

/-- Why a list of bytes begins no instruction. -/
inductive DecodeError where
  /-- The first byte is none of the twelve opcodes (R88). -/
  | unsupportedOpcode (op : Byte)
  /-- The list ends before the instruction's byte number `k` (0 is the opcode). -/
  | missingByte (k : Nat)
  deriving DecidableEq, Repr

/-- Byte `k` of a list, or the refusal that it is missing. -/
def byteAt (bs : List Byte) (k : Nat) : Except DecodeError Byte :=
  match bs[k]? with
  | some b => .ok b
  | none => .error (.missingByte k)

/-! ### The encoder, from the same tables (R84, R86, R94) -/

/-- The opcode byte of an instruction (R86). -/
def Instr.opcode : Instr → Byte
  | .hlt => 0x01
  | .ldi _ _ => 0x82
  | .prn _ => 0x47
  | .st _ _ => 0x84
  | .push _ => 0x45
  | .pop _ => 0x46
  | .call _ => 0x50
  | .ret => 0x11
  | .add _ _ => 0xA0
  | .mul _ _ => 0xA2
  | .and _ _ => 0xA8
  | .cmp _ _ => 0xA7

/-- The operand bytes of an instruction, byte 1 first (R84). -/
def Instr.operands : Instr → List Byte
  | .hlt => []
  | .ldi a i => [a, i]
  | .prn a => [a]
  | .st a b => [a, b]
  | .push a => [a]
  | .pop a => [a]
  | .call a => [a]
  | .ret => []
  | .add a b => [a, b]
  | .mul a b => [a, b]
  | .and a b => [a, b]
  | .cmp a b => [a, b]

/-- The bytes of an instruction, the opcode first, at ascending addresses (R80, R94). -/
def encode (i : Instr) : List Byte := i.opcode :: i.operands

/-- The length in bytes, n + 1, told from the opcode byte alone (R81, R91). -/
def Instr.length (i : Instr) : Nat := operandCount i.opcode + 1

/-- The instruction at the head of a list of bytes and the bytes after it, or why there is none. -/
def decode (bs : List Byte) : Except DecodeError (Instr × List Byte) :=
  match decodeFrom (byteAt bs) .unsupportedOpcode with
  | .error e => .error e
  | .ok i => .ok (i, bs.drop i.length)

/-! ### The opcode table's words -/

/-- The three bytes, lowest address first, of an instruction whose low `nbits` bits are those of `w` and whose further
bits are 0: byte k holds bits 8k+7 to 8k (three bytes is the longest instruction, R80). -/
def tableBytes (nbits w : Nat) : List Byte :=
  let v := w % 2 ^ nbits
  [BitVec.ofNat 8 v, BitVec.ofNat 8 (v / 2 ^ 8), BitVec.ofNat 8 (v / 2 ^ 16)]

/-- The instruction the decoder reads from an instruction word numbered as spec/opcode_table.json numbers it. -/
def decodeTableWord (nbits w : Nat) : Option Instr :=
  match decode (tableBytes nbits w) with
  | .ok (i, _) => some i
  | .error _ => none

end Sys2Proof
end

