-- ==== Sys2Proof/Config.lean ====
section
/-! DEFINITION. What is fixed for this machine (R5), the open reset parameters (R39, D2 to D4), and the one free value. -/

namespace Sys2Proof

/-- SP_RESET: the stack pointer after reset (R5, R39). -/
def Config.spReset : Byte := 0xF4

/-- PC_RESET: the program counter after reset (R5, R39, R221). -/
def Config.pcReset : Nat := 0

/-- LOAD_BASE: the address of the first loaded byte (R5, R226). -/
def Config.loadBase : Nat := 0

/-- What `State.reset` takes for RESET_GPR[0..6], which the spec leaves open (R39, D2). DESIGN CHOICE, log 1. -/
def Config.gprReset : Byte := 0

/-- What `State.reset` takes for RESET_FL, which the spec leaves open (R39, D3). DESIGN CHOICE, log 2. -/
def Config.flReset : Byte := 0

/-- What an address that memory does not list reads as. The spec leaves INIT_MEM open (R39, D4), so `State.reset`
lists nothing and every cell reads as this byte. DESIGN CHOICE, log 3. -/
def Config.unlistedByte : Byte := 0

/-- The named open parameters of reset, as data: RESET_GPR[0..6], RESET_FL and INIT_MEM[0..255] (R39). -/
structure ResetParams where
  gpr     : Vector Byte 7
  fl      : Byte
  initMem : Vector Byte 256
  deriving DecidableEq, Repr

/-- The parameters `State.reset` stands for (log 1, 2, 3). -/
def Config.resetParams : ResetParams where
  gpr     := Vector.replicate 7 Config.gprReset
  fl      := Config.flReset
  initMem := Vector.replicate 256 Config.unlistedByte

/-- What the debug view shows at its `k`-th look for a byte at an address above 255: the spec leaves it unspecified
(R212, D19, U8), so it is a free value of the look and the address. DESIGN CHOICE, log 7. -/
opaque Config.debugBeyond : Nat → Nat → Byte

end Sys2Proof
end

