-- ==== Sys2Proof/Machine/State.lean ====
section
/-! DEFINITION. The state of the Machine (R20 to R39), why it can stop, and its reset value. -/

namespace Sys2Proof.Machine

/-- A fault cause with its recorded information, as the fault latch holds it (R34, R190, R196). -/
inductive FaultCause where
  /-- UnsupportedOpcode(op): the fetched byte has no handler (R191). -/
  | unsupportedOpcode (op : Byte)
  /-- UnsupportedALUOperation(name): an ALU operation outside ADD, MUL, AND, CMP (R192); never raised (R176). -/
  | unsupportedAluOperation (name : String)
  /-- OutOfRange(MemoryIndex, addr): a fetch or operand fetch above address 255 (R193). -/
  | memoryIndex (addr : Nat)
  /-- OutOfRange(RegisterIndex, i): a register operand byte above 7 (R194). -/
  | registerIndex (i : Byte)
  /-- OutOfRange(ReturnAddress, addr): a CALL whose return address does not fit a cell (R195). -/
  | returnAddress (addr : Nat)
  deriving DecidableEq, Repr

/-- Memory: its cells as (address, byte) pairs in one canonical form (`Memory.wf`). An address that is not listed reads as
`Config.unlistedByte` (log 3). -/
abbrev Memory := List Host.Cell

/-- All the state there is (R37), with the output history `out` that claims are stated over (R35). -/
structure State where
  /-- The general registers x[0] to x[7]; x[7] is the stack pointer (R20, R23). -/
  regs  : Vector Byte 8
  /-- The program counter: an unsigned integer that does not wrap (R25, R27). -/
  pc    : Nat
  /-- The flags register, 00000LGE (R29). -/
  fl    : Byte
  /-- The 256 cells (R36, R50). -/
  mem   : Memory
  /-- The running flag (R33). -/
  run   : Bool
  /-- The fault latch (R34). -/
  fault : Option FaultCause
  /-- The output history, oldest first (R35, R132). -/
  out   : List Byte
  deriving DecidableEq, Repr

/-- Why no step is enabled (R121, U9): the Machine is stuck, it has no successor state. A fault of the program itself is
not here: it is a next state with the fault latch set (R197). -/
inductive Fault where
  /-- The running flag is 0: HLT has executed (R121, R130). Raised by `step` alone, never by an instruction. Safe: the
  spec gives a halted Machine no transition. -/
  | halted
  /-- The fault latch holds `c` (R121, R199). Raised by `step` alone, never by an instruction. Safe: the spec gives a
  faulted Machine no transition. -/
  | faulted (c : FaultCause)
  deriving DecidableEq, Repr

/-- What the model gives no meaning to. -/
inductive Refusal where
  /-- An instruction with no meaning yet. Raised by `exec` alone, for no instruction of this model. Safe. -/
  | notModelled (mnemonic : String)
  /-- A load of `k` > 256 bytes, whose result the source calls undefined (R226, U1). Raised by `load` alone, never by a
  step. Safe. -/
  | loadTooLong (k : Nat)
  deriving DecidableEq, Repr

/-- The state right after reset (R39, R220). x[7], pc, run, fault and out are the spec's values. x[0] to x[6], fl and
every cell are open in the spec and take the model's choice (DESIGN CHOICE, log 1, 2, 3); `resetWith` takes any. -/
def State.reset : State where
  regs  := #v[Config.gprReset, Config.gprReset, Config.gprReset, Config.gprReset, Config.gprReset, Config.gprReset,
              Config.gprReset, Config.spReset]
  pc    := Config.pcReset
  fl    := Config.flReset
  mem   := []
  run   := true
  fault := none
  out   := []

end Sys2Proof.Machine
end

