-- ==== Sys2Proof/Machine/Ops.lean ====
section
/-! DEFINITION. The shared operations: registers, the two memory primitives, the stack primitives, output, taking a fault,
and the program-counter multiplexer. -/

namespace Sys2Proof.Machine

/-- What an instruction or a step answers. -/
abbrev Result := Host.Outcome State Fault Refusal

/-! ### Memory as data -/

/-- The byte at an address (R50). -/
def Memory.read : Memory → Nat → Byte
  | [], _ => Config.unlistedByte
  | (k, v) :: m, a => if k = a then v else Memory.read m a

/-- List `v` at address `a`, in address order, in place of what was listed there. -/
def Memory.insert : Memory → Nat → Byte → Memory
  | [], a, v => [(a, v)]
  | (k, w) :: m, a, v =>
    if a < k then (a, v) :: (k, w) :: m
    else if a = k then (a, v) :: m
    else (k, w) :: Memory.insert m a v

/-- Cell `a` takes the value `v` and no other cell changes (R53), in the canonical form: the value an unlisted address
reads as is not listed. -/
def Memory.write (m : Memory) (a : Nat) (v : Byte) : Memory :=
  if v = Config.unlistedByte then m.filter fun c => decide (c.1 ≠ a) else Memory.insert m a v

/-- The canonical form: addresses strictly rising, all in 0 to 255, no entry equal to what an unlisted address reads as.
Equal contents are then equal lists. -/
def Memory.wf : Memory → Bool
  | [] => true
  | (a, v) :: m =>
    decide (a ≤ 255) && decide (v ≠ Config.unlistedByte) && m.all (fun c => decide (a < c.1)) && Memory.wf m

/-- Write a sequence of bytes at ascending addresses from `a`; bytes for addresses above 255 have no cell and are left
out. -/
def Memory.place : Memory → Nat → List Byte → Memory
  | m, _, [] => m
  | m, a, v :: bs => Memory.place (if a ≤ 255 then Memory.write m a v else m) (a + 1) bs

/-! ### Accessors -/

/-- x[r] (R8). -/
def State.x (s : State) (r : RegIdx) : Byte := s.regs[r]

/-- x[r] <- v (R8). -/
def State.setX (s : State) (r : RegIdx) (v : Byte) : State := { s with regs := s.regs.set r v }

/-- The value of cell `a`. -/
def State.cell (s : State) (a : Nat) : Byte := Memory.read s.mem a

/-- Cell `a` takes the value `v`. -/
def State.setCell (s : State) (a : Nat) (v : Byte) : State := { s with mem := Memory.write s.mem a v }

/-- fl <- v (R8). -/
def State.setFl (s : State) (v : Byte) : State := { s with fl := v }

/-- pc <- target (R8). -/
def State.setPc (s : State) (target : Nat) : State := { s with pc := target }

/-- run <- b (R8). -/
def State.setRun (s : State) (b : Bool) : State := { s with run := b }

/-- fault <- c (R34, R197). -/
def State.setFault (s : State) (c : FaultCause) : State := { s with fault := some c }

/-- Output(v): append v to the output history (R132). -/
def State.output (s : State) (v : Byte) : State := { s with out := s.out ++ [v] }

/-- A step is enabled exactly when run = 1 and fault = none (R110). -/
def State.enabled (s : State) : Bool := s.run && s.fault.isNone

/-! ### The memory interface -/

/-- MemRead(addr, 1) (R52). -/
def memRead (addr : Nat) (s : State) : Except FaultCause Byte :=
  if 255 < addr then .error (.memoryIndex addr) else .ok (s.cell addr)

/-- MemWrite(addr, 1, v) (R53). -/
def memWrite (addr : Nat) (v : Byte) (s : State) : Except FaultCause State :=
  if 255 < addr then .error (.memoryIndex addr) else .ok (s.setCell addr v)

/-! ### The stack primitives -/

/-- StackPush(v) (R150): decrement the stack pointer modulo 256, then write v at the cell it addresses. -/
def stackPush (v : Byte) (s : State) : Except FaultCause State :=
  let s' := s.setX sp (s.x sp - 1)
  memWrite (s'.x sp).toNat v s'

/-- StackPop() (R151): read the cell the stack pointer addresses, then increment the stack pointer modulo 256. The
popped byte comes with the state. -/
def stackPop (s : State) : Except FaultCause (Byte × State) :=
  match memRead (s.x sp).toNat s with
  | .error c => .error c
  | .ok t => .ok (t, s.setX sp (s.x sp + 1))

/-! ### Taking a fault -/

/-- Fault entry (R197): set the latch and change nothing else. There is no handler, no saved register and no return from
a fault (R199), so nothing stands beside it. -/
def raise (c : FaultCause) (s : State) : Result := .next (s.setFault c)

/-! ### The program-counter multiplexer and the end of a step -/

/-- The next program counter (R116): the zero-extended target when the opcode's sets-PC flag is 1, else pc + n + 1,
without wrap-around. -/
def pcMux (op : Byte) (target : Byte) (pc : Nat) : Nat :=
  if setsPc op then target.toNat else pc + operandCount op + 1

/-- The multiplexer's target input for an instruction that supplies none; its select is 0, so it is not used (R116). -/
def noTarget : Byte := 0

/-- The end of the step of instruction `i` begun in `s` (R116, R118): a handler that raised leaves `s` with the latch set;
one that finished supplied a target and its state, and the write of pc is the last action. -/
def commit (i : Instr) (s : State) : Except FaultCause (Byte × State) → Result
  | .error c => raise c s
  | .ok (target, t) => .next (t.setPc (pcMux i.opcode target s.pc))

/-- The end of the step of an instruction whose handler finished and supplies no target. -/
def commitSequential (i : Instr) (s t : State) : Result := commit i s (.ok (noTarget, t))

end Sys2Proof.Machine
end

