-- ==== Sys2Proof/Machine/Flags.lean ====
section
/-! DEFINITION. The flags register's layout and its one computation, the compare (R29, R174). -/

namespace Sys2Proof.Machine

/-- E alone: bit 0 of 00000LGE (R29). -/
def flagE : Byte := 0b00000001

/-- G alone: bit 1 (R29). -/
def flagG : Byte := 0b00000010

/-- L alone: bit 2 (R29). -/
def flagL : Byte := 0b00000100

/-- The flags of comparing p with q as unsigned integers: all eight bits, exactly one of them set (R170, R174). -/
def compareFlags (p q : Byte) : Byte :=
  if p.toNat = q.toNat then flagE else if q.toNat < p.toNat then flagG else flagL

/-- Bit E of the flags register (R29). -/
def State.flE (s : State) : Bool := s.fl.getLsbD 0

/-- Bit G of the flags register (R29). -/
def State.flG (s : State) : Bool := s.fl.getLsbD 1

/-- Bit L of the flags register (R29). -/
def State.flL (s : State) : Bool := s.fl.getLsbD 2

end Sys2Proof.Machine
end

