-- ==== Sys2Proof/Machine/Operands.lean ====
section
/-! DEFINITION. The operand forms: a register operand byte, checked and not masked (R85, R194). The other form, LDI's
immediate, is the byte as it stands (R85, R140). -/

namespace Sys2Proof.Machine

/-- CheckReg(i) (R194): the register an operand byte names, or OutOfRange(RegisterIndex, i) above 7. -/
def checkReg (i : Byte) : Except FaultCause RegIdx :=
  if h : i.toNat < 8 then .ok ⟨i.toNat, h⟩ else .error (.registerIndex i)

/-- Run `k` on the register that `a` names, or raise (format R and RI; R115, R118: the check comes before any effect). -/
def withReg (a : Byte) (s : State) (k : RegIdx → Result) : Result :=
  match checkReg a with
  | .ok r => k r
  | .error c => raise c s

/-- Run `k` on the registers that `a` and `b` name, or raise; `a` is checked first (format RR; R194, R200). -/
def withRegs (a b : Byte) (s : State) (k : RegIdx → RegIdx → Result) : Result :=
  withReg a s fun ra => withReg b s fun rb => k ra rb

end Sys2Proof.Machine
end

