-- ==== Sys2Proof/Machine/Alu.lean ====
section
/-! DEFINITION. The ALU (R170, R175, R176) and its instructions ADD, MUL, AND, CMP (R171 to R174). -/

namespace Sys2Proof.Machine

/-- The operation name the ALU is given; `other` is the source's defensive case, requested by no instruction (R176). -/
inductive AluOp where
  | add
  | mul
  | and
  | cmp
  | other (name : String)
  deriving DecidableEq, Repr

/-- What the ALU yields: a register result for ADD, MUL and AND, a flags value for CMP (R170). -/
inductive AluOutput where
  | value (v : Byte)
  | flags (v : Byte)
  deriving DecidableEq, Repr

/-- The ALU, a pure function with no state (R170): sum and product modulo 256, bitwise and, unsigned compare. -/
def alu (op : AluOp) (p q : Byte) : Except FaultCause AluOutput :=
  match op with
  | .add => .ok (.value (BitVec.ofNat 8 ((p.toNat + q.toNat) % 256)))
  | .mul => .ok (.value (BitVec.ofNat 8 ((p.toNat * q.toNat) % 256)))
  | .and => .ok (.value (p &&& q))
  | .cmp => .ok (.flags (compareFlags p q))
  | .other name => .error (.unsupportedAluOperation name)

/-- Write the ALU's output: a register result to x[r], a flags value to fl and no register (R170). -/
def aluWrite (r : RegIdx) (s : State) : AluOutput → State
  | .value v => s.setX r v
  | .flags v => s.setFl v

/-- The common shape of the ALU's instructions (R171 to R174): check a, then b; read both registers; write the output. -/
def aluStep (op : AluOp) (i : Instr) (a b : Byte) (s : State) : Result :=
  withRegs a b s fun ra rb =>
    commit i s ((alu op (s.x ra) (s.x rb)).map fun o => (noTarget, aluWrite ra s o))

/-- ADD a, b (R171): x[a] takes (x[a] + x[b]) mod 256; pc + 3. -/
def execAdd (a b : Byte) (s : State) : Result := aluStep .add (.add a b) a b s

/-- MUL a, b (R172): x[a] takes (x[a] * x[b]) mod 256; pc + 3. -/
def execMul (a b : Byte) (s : State) : Result := aluStep .mul (.mul a b) a b s

/-- AND a, b (R173): x[a] takes the bitwise and of x[a] and x[b]; pc + 3. -/
def execAnd (a b : Byte) (s : State) : Result := aluStep .and (.and a b) a b s

/-- CMP a, b (R174): fl takes the flags of the unsigned comparison of x[a] with x[b]; pc + 3. -/
def execCmp (a b : Byte) (s : State) : Result := aluStep .cmp (.cmp a b) a b s

end Sys2Proof.Machine
end

