-- ==== Sys2Proof/Machine/Control.lean ====
section
/-! DEFINITION. Machine control and output: HLT, PRN (R130, R131). -/

namespace Sys2Proof.Machine

/-- HLT (R130): clear the running flag; pc + 1 in the same step. -/
def execHlt (s : State) : Result := commitSequential .hlt s (s.setRun false)

/-- PRN a (R131): hand x[a] to the output sink; pc + 2. -/
def execPrn (a : Byte) (s : State) : Result :=
  withReg a s fun ra => commitSequential (.prn a) s (s.output (s.x ra))

end Sys2Proof.Machine
end

