-- ==== Sys2Proof/Machine/DataMovement.lean ====
section
/-! DEFINITION. Data movement: LDI, ST (R140, R141). -/

namespace Sys2Proof.Machine

/-- LDI a, i (R140): x[a] takes the immediate byte unchanged; pc + 3. -/
def execLdi (a i : Byte) (s : State) : Result :=
  withReg a s fun ra => commitSequential (.ldi a i) s (s.setX ra i)

/-- ST a, b (R141): the cell at address x[a] takes x[b]; pc + 3. -/
def execSt (a b : Byte) (s : State) : Result :=
  withRegs a b s fun ra rb =>
    commit (.st a b) s ((memWrite (s.x ra).toNat (s.x rb) s).map fun t => (noTarget, t))

end Sys2Proof.Machine
end

