-- ==== Sys2Proof/Machine/Stack.lean ====
section
/-! DEFINITION. Stack and subroutine: PUSH, POP, CALL, RET (R152 to R155). -/

namespace Sys2Proof.Machine

/-- PUSH a (R152): the value of x[a] is read before the stack pointer moves; pc + 2. -/
def execPush (a : Byte) (s : State) : Result :=
  withReg a s fun ra => commit (.push a) s ((stackPush (s.x ra) s).map fun t => (noTarget, t))

/-- POP a (R153): x[a] is written after the stack pointer moved; pc + 2. -/
def execPop (a : Byte) (s : State) : Result :=
  withReg a s fun ra => commit (.pop a) s ((stackPop s).map fun p => (noTarget, p.2.setX ra p.1))

/-- CALL a (R154): raise if the return address pc + 2 does not fit a cell; else push it and jump to x[a], read after the
push. -/
def execCall (a : Byte) (s : State) : Result :=
  withReg a s fun ra =>
    commit (.call a) s
      (if 255 < s.pc + 2 then .error (.returnAddress (s.pc + 2))
       else (stackPush (BitVec.ofNat 8 (s.pc + 2)) s).map fun t => (t.x ra, t))

/-- RET (R155): jump to the popped byte. -/
def execRet (s : State) : Result := commit .ret s (stackPop s)

end Sys2Proof.Machine
end

