-- ==== Sys2Proof/Machine/Fetch.lean ====
section
/-! DEFINITION. The first three stages of a step: opcode fetch, decode, operand fetch (R111 to R114). -/

namespace Sys2Proof.Machine

/-- The instruction at pc, or the fault the fetch, the decoder or the operand fetch raises (R111 to R114, R200 (1) to
(4)). The decoder reads byte k of the instruction by MemRead(pc + k, 1), an address that does not wrap. -/
def fetch (s : State) : Except FaultCause Instr :=
  decodeFrom (fun k => memRead (s.pc + k) s) .unsupportedOpcode

/-- One enabled step (R117): fetch and decode, then the handler, or fault entry where a stage raised. -/
def stepEnabled (exec : Instr → State → Result) (s : State) : Result :=
  match fetch s with
  | .error c => raise c s
  | .ok i => exec i s

end Sys2Proof.Machine
end

