-- ==== Sys2Proof/Machine/Step.lean ====
section
/-! DEFINITION. One step of the Machine (R110, R117, R121), and how an instruction word is placed where it is fetched. -/

namespace Sys2Proof.Machine

/-- The step (R117). It is enabled exactly when run = 1 and fault = none (R110); a halted or a faulted Machine has no
transition and is stuck under a name of its own (R121, U9). -/
def step (s : State) : Host.Outcome State Fault Refusal :=
  match s.fault with
  | some c => .fault (.faulted c)
  | none => if s.run then stepEnabled exec s else .fault .halted

/-- `s` with the instruction word `w` of `nbits` bits (further bits 0, three bytes in all) stored at pc, where the next
step fetches. Bytes for addresses above 255 have no cell. Nothing else changes (log 5). -/
def State.withFetchWord (s : State) (nbits w : Nat) : State :=
  { s with mem := Memory.place s.mem s.pc (tableBytes nbits w) }

end Sys2Proof.Machine
end

