-- ==== Sys2Proof/Machine/Lifecycle.lean ====
section
/-! DEFINITION. The Machine's interfaces to the outside: reset with any open parameters, load, run, status, fault codes,
and the read-only debug view (R39, R119, R196, R212, R220, R224, R226). -/

namespace Sys2Proof.Machine

/-! ### Reset -/

/-- The state after reset for any value of the open parameters (R39, R220). -/
def resetWith (p : ResetParams) : State where
  regs  := p.gpr.push Config.spReset
  pc    := Config.pcReset
  fl    := p.fl
  mem   := Memory.place [] 0 p.initMem.toList
  run   := true
  fault := none
  out   := []

/-- A reset applied at any time: the state before it has no influence (R224). -/
def resetEvent (p : ResetParams) (_ : State) : State := resetWith p

/-! ### Load -/

/-- Load(bytes) (R226): at most 256 bytes are written at ascending addresses from LOAD_BASE and nothing else changes; a
longer sequence is refused (U1). -/
def load (bytes : List Byte) (s : State) : Result :=
  if bytes.length ≤ 256 then .next { s with mem := Memory.place s.mem Config.loadBase bytes }
  else .refused (.loadTooLong bytes.length)

/-- Reset, then the one load, before the first step (R223). -/
def launch (p : ResetParams) (bytes : List Byte) : Result := load bytes (resetWith p)

/-! ### Run -/

/-- At most `k` rounds of the loop Run (R119): step while run = 1 and fault = none. -/
def runSteps : Nat → State → State
  | 0, s => s
  | k + 1, s =>
    match step s with
    | .next t => runSteps k t
    | .fault _ => s
    | .refused _ => s

/-! ### Status and fault codes -/

/-- The status output: the running flag and the fault latch (R33, R34). -/
def status (s : State) : Bool × Option FaultCause := (s.run, s.fault)

/-- The numeric cause code (R196, D7). -/
def FaultCause.code : FaultCause → Nat
  | .unsupportedOpcode _ => 1
  | .unsupportedAluOperation _ => 2
  | .memoryIndex _ => 3
  | .registerIndex _ => 3
  | .returnAddress _ => 3

/-- The sub-kind of OutOfRange; the other causes have none (R196, D7). -/
def FaultCause.subKind : FaultCause → Option Nat
  | .unsupportedOpcode _ => none
  | .unsupportedAluOperation _ => none
  | .memoryIndex _ => some 0
  | .registerIndex _ => some 1
  | .returnAddress _ => some 2

/-! ### The debug view -/

/-- What the debug view offers (R212): pc, fl, the bytes at pc, pc+1 and pc+2, and the registers. -/
structure DebugView where
  pc    : Nat
  fl    : Byte
  bytes : Vector Byte 3
  regs  : Vector Byte 8
  deriving DecidableEq, Repr

/-- The byte the debug view shows for address `a` at its `k`-th look: the cell, or a free value above 255 (R212, U8). -/
def debugByte (k : Nat) (s : State) (a : Nat) : Byte := if a ≤ 255 then s.cell a else Config.debugBeyond k a

/-- The `k`-th look at the debug view (R212). It reads and has no way to change the state. -/
def debugView (k : Nat) (s : State) : DebugView where
  pc    := s.pc
  fl    := s.fl
  bytes := #v[debugByte k s s.pc, debugByte k s (s.pc + 1), debugByte k s (s.pc + 2)]
  regs  := s.regs

end Sys2Proof.Machine
end

