-- ==== Sys2Proof/Safety.lean ====
section
/-! DEFINITION. What claims are stated in: the invariant of a state, the frames of a step, the ends of a run. -/

namespace Sys2Proof.Machine

/-! ### The invariant -/

/-- What every state the Machine can be in satisfies: memory is in its canonical form (and lists only addresses 0 to 255,
R50); the program counter is 0 to 256 (R27); a faulted Machine still has run = 1 (R198). -/
structure State.Inv (s : State) : Prop where
  memCanonical  : Memory.wf s.mem = true
  pcRange       : s.pc ≤ 256
  faultedRunning : s.fault ≠ none → s.run = true

/-! ### Frames -/

/-- Every register for which `w` does not hold is unchanged. -/
def SameRegsBut (s t : State) (w : RegIdx → Prop) : Prop := ∀ r : RegIdx, ¬ w r → t.x r = s.x r

/-- Every register is unchanged. -/
def SameRegs (s t : State) : Prop := ∀ r : RegIdx, t.x r = s.x r

/-- Every byte of memory is unchanged. -/
def SameMem (s t : State) : Prop := ∀ a : Nat, t.cell a = s.cell a

/-- Every byte of memory outside address `w` is unchanged. -/
def SameMemBut (s t : State) (w : Nat) : Prop := ∀ a : Nat, a ≠ w → t.cell a = s.cell a

/-- The running flag and the fault latch are unchanged. -/
def SameStatus (s t : State) : Prop := t.run = s.run ∧ t.fault = s.fault

/-- The step raised `c` and did nothing else: the next state is `s` with the fault latch set (R197, R198). -/
def Raised (o : Result) (s : State) (c : FaultCause) : Prop := o = .next { s with fault := some c }

/-! ### Bytes in memory -/

/-- The bytes `bs` stand at ascending addresses from `a`, all within memory. -/
def BytesAt (s : State) (a : Nat) (bs : List Byte) : Prop :=
  ∀ (k : Nat) (h : k < bs.length), a + k ≤ 255 ∧ s.cell (a + k) = bs[k]

/-- The encoding of `i` is exactly `bs`, both ways (R84, R94). -/
def EncodedAs (i : Instr) (bs : List Byte) : Prop := encode i = bs ∧ decode bs = .ok (i, [])

/-- Wherever the opcode `op` stands so close to the top of memory that one of its `n` operand bytes has no cell, an
enabled step raises OutOfRange(MemoryIndex, 256) and nothing else (R114, R213). -/
def OperandFetchFaults (op : Byte) (n : Nat) : Prop :=
  ∀ s : State, s.enabled = true → s.pc ≤ 255 → s.cell s.pc = op → 255 < s.pc + n → Raised (step s) s (.memoryIndex 256)

/-- The address a step that executes `i` in `s` stores to, if it stores (R55): x[a] for ST, the decremented stack pointer
for PUSH and CALL. An operand byte above 7 stores nothing. -/
def storeAddress (i : Instr) (s : State) : Option Nat :=
  match i with
  | .st a b =>
    match checkReg a, checkReg b with
    | .ok ra, .ok _ => some (s.x ra).toNat
    | _, _ => none
  | .push a =>
    match checkReg a with
    | .ok _ => some (s.x sp - 1).toNat
    | .error _ => none
  | .call a =>
    match checkReg a with
    | .ok _ => if s.pc + 2 ≤ 255 then some (s.x sp - 1).toNat else none
    | .error _ => none
  | .hlt | .ldi _ _ | .prn _ | .pop _ | .ret | .add _ _ | .mul _ _ | .and _ _ | .cmp _ _ => none

/-! ### The ends of a run (R119, R120) -/

/-- A run has ended normally: run = 0 and fault = none (R120). -/
def EndedNormally (s : State) : Prop := s.run = false ∧ s.fault = none

/-- A run has ended in failure: the fault latch is set (R120). -/
def EndedInFailure (s : State) : Prop := s.fault ≠ none

/-- Run, asked in `s`, returns in `t` (R119): some number of its rounds leads to `t`, where no step is enabled. -/
def RunReturns (s t : State) : Prop := t.enabled = false ∧ ∃ k : Nat, runSteps k s = t

/-- `t` is reached from `s` by `k` next steps. -/
def Steps : Nat → State → State → Prop
  | 0, s, t => t = s
  | k + 1, s, t => ∃ u, step s = .next u ∧ Steps k u t

end Sys2Proof.Machine
end

