-- ==== Sys2Proof/Certificates/Slice0/Obligations.lean ====
section
/-! DEFINITION. The statements for the provers. Each says which sentence of spec/ it formalises; the vocabulary is
Sys2Proof/Safety.lean. -/

open Sys2Proof Sys2Proof.Machine

/-! ### The twelve instructions: encoding, effect, frame, faults -/

/-- R130. HLT is the byte 0x01. It clears the running flag and advances pc by 1 in one step, changes nothing else, raises
nothing of its own, and no step follows it. -/
def Obligations.HltStopsAndAdvancesByOne : Prop :=
  EncodedAs .hlt [0x01] ∧
  ∀ s : State, ∃ t, exec .hlt s = .next t ∧
    t.run = false ∧ t.pc = s.pc + 1 ∧
    t.fl = s.fl ∧ SameRegs s t ∧ SameMem s t ∧ t.out = s.out ∧ t.fault = s.fault ∧
    ∀ u, step t ≠ .next u

/-- R131. PRN a hands x[a] to the output and advances pc by 2; a register operand byte above 7 is raised and nothing is
output; so is an operand fetch beyond address 255. That a fault changes nothing else and which comes first are also the
spec's decisions D6 and D8 (log 8, 12), that pc does not wrap D1 (log 4). -/
def Obligations.PrnOutputsRegister : Prop :=
  (∀ (a : Byte) (s : State),
    EncodedAs (.prn a) [0x47, a] ∧
    (∀ ha : a.toNat < 8, ∃ t, exec (.prn a) s = .next t ∧
      t.out = s.out ++ [s.x ⟨a.toNat, ha⟩] ∧ t.pc = s.pc + 2 ∧
      t.fl = s.fl ∧ SameRegs s t ∧ SameMem s t ∧ SameStatus s t) ∧
    (8 ≤ a.toNat → Raised (exec (.prn a) s) s (.registerIndex a))) ∧
  OperandFetchFaults 0x47 1

/-- R140. LDI a, i writes the immediate byte to x[a] unchanged and advances pc by 3. Every immediate is legal; the register
operand byte is checked. The clauses on faults and on pc: log 4, 8, 12. -/
def Obligations.LdiWritesImmediate : Prop :=
  (∀ (a i : Byte) (s : State),
    EncodedAs (.ldi a i) [0x82, a, i] ∧
    (∀ ha : a.toNat < 8, ∃ t, exec (.ldi a i) s = .next t ∧
      t.x ⟨a.toNat, ha⟩ = i ∧ t.pc = s.pc + 3 ∧
      t.fl = s.fl ∧ SameRegsBut s t (· = ⟨a.toNat, ha⟩) ∧ SameMem s t ∧ t.out = s.out ∧ SameStatus s t) ∧
    (8 ≤ a.toNat → Raised (exec (.ldi a i) s) s (.registerIndex a))) ∧
  OperandFetchFaults 0x82 2

/-- R141. ST a, b stores x[b] in the cell at address x[a] and advances pc by 3. No register and no other cell changes; a is
checked before b. The clauses on faults and on pc: log 4, 8, 12. -/
def Obligations.StStoresRegisterIndirect : Prop :=
  (∀ (a b : Byte) (s : State),
    EncodedAs (.st a b) [0x84, a, b] ∧
    (∀ (ha : a.toNat < 8) (hb : b.toNat < 8), ∃ t, exec (.st a b) s = .next t ∧
      t.cell (s.x ⟨a.toNat, ha⟩).toNat = s.x ⟨b.toNat, hb⟩ ∧ SameMemBut s t (s.x ⟨a.toNat, ha⟩).toNat ∧
      t.pc = s.pc + 3 ∧ t.fl = s.fl ∧ SameRegs s t ∧ t.out = s.out ∧ SameStatus s t) ∧
    (8 ≤ a.toNat → Raised (exec (.st a b) s) s (.registerIndex a)) ∧
    (a.toNat < 8 → 8 ≤ b.toNat → Raised (exec (.st a b) s) s (.registerIndex b))) ∧
  OperandFetchFaults 0x84 2

/-- PUSH a decrements the stack pointer modulo 256 and writes the value x[a] had before the decrement (register 7 too: the
spec's decision D12, log 10) to the cell it then addresses; pc advances by 2. -/
def Obligations.PushWritesBelowStackPointer : Prop :=
  (∀ (a : Byte) (s : State),
    EncodedAs (.push a) [0x45, a] ∧
    (∀ ha : a.toNat < 8, ∃ t, exec (.push a) s = .next t ∧
      t.x sp = s.x sp - 1 ∧ SameRegsBut s t (· = sp) ∧
      t.cell (s.x sp - 1).toNat = s.x ⟨a.toNat, ha⟩ ∧ SameMemBut s t (s.x sp - 1).toNat ∧
      t.pc = s.pc + 2 ∧ t.fl = s.fl ∧ t.out = s.out ∧ SameStatus s t) ∧
    (8 ≤ a.toNat → Raised (exec (.push a) s) s (.registerIndex a))) ∧
  OperandFetchFaults 0x45 1

/-- POP a writes the byte at the stack pointer to x[a], after the stack pointer moved up by one modulo 256, so POP R7 leaves
the popped byte (the spec's decision D12, log 10); memory does not change; pc advances by 2. -/
def Obligations.PopReadsAtStackPointer : Prop :=
  (∀ (a : Byte) (s : State),
    EncodedAs (.pop a) [0x46, a] ∧
    (∀ ha : a.toNat < 8, ∃ t, exec (.pop a) s = .next t ∧
      t.x ⟨a.toNat, ha⟩ = s.cell (s.x sp).toNat ∧ (a.toNat ≠ 7 → t.x sp = s.x sp + 1) ∧
      SameRegsBut s t (fun r => r = ⟨a.toNat, ha⟩ ∨ r = sp) ∧ SameMem s t ∧
      t.pc = s.pc + 2 ∧ t.fl = s.fl ∧ t.out = s.out ∧ SameStatus s t) ∧
    (8 ≤ a.toNat → Raised (exec (.pop a) s) s (.registerIndex a))) ∧
  OperandFetchFaults 0x46 1

/-- CALL a pushes pc + 2 and jumps to the value x[a] has after the push (so CALL R7 jumps to the decremented stack pointer:
the spec's decision D12, log 10). A return address above 255 is raised, after the register check and before anything is
pushed (the spec's decision D11, log 11). -/
def Obligations.CallPushesReturnAddress : Prop :=
  (∀ (a : Byte) (s : State),
    EncodedAs (.call a) [0x50, a] ∧
    (∀ ha : a.toNat < 8, s.pc + 2 ≤ 255 → ∃ t, exec (.call a) s = .next t ∧
      t.x sp = s.x sp - 1 ∧ SameRegsBut s t (· = sp) ∧
      (t.cell (s.x sp - 1).toNat).toNat = s.pc + 2 ∧ SameMemBut s t (s.x sp - 1).toNat ∧
      t.pc = (t.x ⟨a.toNat, ha⟩).toNat ∧ t.fl = s.fl ∧ t.out = s.out ∧ SameStatus s t) ∧
    (8 ≤ a.toNat → Raised (exec (.call a) s) s (.registerIndex a)) ∧
    (a.toNat < 8 → 255 < s.pc + 2 → Raised (exec (.call a) s) s (.returnAddress (s.pc + 2)))) ∧
  OperandFetchFaults 0x50 1

/-- RET is the byte 0x11. It jumps to the byte at the stack pointer and moves the stack pointer up by one modulo
256; nothing else changes and it raises nothing. -/
def Obligations.RetPopsProgramCounter : Prop :=
  EncodedAs .ret [0x11] ∧
  ∀ s : State, ∃ t, exec .ret s = .next t ∧
    t.pc = (s.cell (s.x sp).toNat).toNat ∧ t.x sp = s.x sp + 1 ∧ SameRegsBut s t (· = sp) ∧
    SameMem s t ∧ t.fl = s.fl ∧ t.out = s.out ∧ SameStatus s t

/-- R171. ADD a, b: x[a] takes the sum modulo 256; no flag is touched. The clauses on faults and on pc: log 4,
8, 12. -/
def Obligations.AddIsSumModulo256 : Prop :=
  (∀ (a b : Byte) (s : State),
    EncodedAs (.add a b) [0xA0, a, b] ∧
    (∀ (ha : a.toNat < 8) (hb : b.toNat < 8), ∃ t, exec (.add a b) s = .next t ∧
      (t.x ⟨a.toNat, ha⟩).toNat = ((s.x ⟨a.toNat, ha⟩).toNat + (s.x ⟨b.toNat, hb⟩).toNat) % 256 ∧
      SameRegsBut s t (· = ⟨a.toNat, ha⟩) ∧ t.pc = s.pc + 3 ∧
      t.fl = s.fl ∧ SameMem s t ∧ t.out = s.out ∧ SameStatus s t) ∧
    (8 ≤ a.toNat → Raised (exec (.add a b) s) s (.registerIndex a)) ∧
    (a.toNat < 8 → 8 ≤ b.toNat → Raised (exec (.add a b) s) s (.registerIndex b))) ∧
  OperandFetchFaults 0xA0 2

/-- R172. MUL a, b: x[a] takes the low 8 bits of the product; no flag is touched. The clauses on faults and on
pc: log 4, 8, 12. -/
def Obligations.MulIsProductModulo256 : Prop :=
  (∀ (a b : Byte) (s : State),
    EncodedAs (.mul a b) [0xA2, a, b] ∧
    (∀ (ha : a.toNat < 8) (hb : b.toNat < 8), ∃ t, exec (.mul a b) s = .next t ∧
      (t.x ⟨a.toNat, ha⟩).toNat = ((s.x ⟨a.toNat, ha⟩).toNat * (s.x ⟨b.toNat, hb⟩).toNat) % 256 ∧
      SameRegsBut s t (· = ⟨a.toNat, ha⟩) ∧ t.pc = s.pc + 3 ∧
      t.fl = s.fl ∧ SameMem s t ∧ t.out = s.out ∧ SameStatus s t) ∧
    (8 ≤ a.toNat → Raised (exec (.mul a b) s) s (.registerIndex a)) ∧
    (a.toNat < 8 → 8 ≤ b.toNat → Raised (exec (.mul a b) s) s (.registerIndex b))) ∧
  OperandFetchFaults 0xA2 2

/-- R173. AND a, b: bit k of x[a] becomes the and of bit k of both, for every k; no flag is touched. The
clauses on faults and on pc: log 4, 8, 12. -/
def Obligations.AndIsBitwise : Prop :=
  (∀ (a b : Byte) (s : State),
    EncodedAs (.and a b) [0xA8, a, b] ∧
    (∀ (ha : a.toNat < 8) (hb : b.toNat < 8), ∃ t, exec (.and a b) s = .next t ∧
      (∀ k < 8, (t.x ⟨a.toNat, ha⟩).getLsbD k =
        ((s.x ⟨a.toNat, ha⟩).getLsbD k && (s.x ⟨b.toNat, hb⟩).getLsbD k)) ∧
      SameRegsBut s t (· = ⟨a.toNat, ha⟩) ∧ t.pc = s.pc + 3 ∧
      t.fl = s.fl ∧ SameMem s t ∧ t.out = s.out ∧ SameStatus s t) ∧
    (8 ≤ a.toNat → Raised (exec (.and a b) s) s (.registerIndex a)) ∧
    (a.toNat < 8 → 8 ≤ b.toNat → Raised (exec (.and a b) s) s (.registerIndex b))) ∧
  OperandFetchFaults 0xA8 2

/-- R174. CMP a, b: fl becomes 0x01, 0x02 or 0x04 by the unsigned comparison of x[a] with x[b], whatever it was; no
register is written. The clauses on faults and on pc: log 4, 8, 12; that the comparison is unsigned: D13, log 18. -/
def Obligations.CmpWritesComparison : Prop :=
  (∀ (a b : Byte) (s : State),
    EncodedAs (.cmp a b) [0xA7, a, b] ∧
    (∀ (ha : a.toNat < 8) (hb : b.toNat < 8), ∃ t, exec (.cmp a b) s = .next t ∧
      ((s.x ⟨a.toNat, ha⟩).toNat = (s.x ⟨b.toNat, hb⟩).toNat → t.fl = 0x01) ∧
      ((s.x ⟨b.toNat, hb⟩).toNat < (s.x ⟨a.toNat, ha⟩).toNat → t.fl = 0x02) ∧
      ((s.x ⟨a.toNat, ha⟩).toNat < (s.x ⟨b.toNat, hb⟩).toNat → t.fl = 0x04) ∧
      t.pc = s.pc + 3 ∧ SameRegs s t ∧ SameMem s t ∧ t.out = s.out ∧ SameStatus s t) ∧
    (8 ≤ a.toNat → Raised (exec (.cmp a b) s) s (.registerIndex a)) ∧
    (a.toNat < 8 → 8 ≤ b.toNat → Raised (exec (.cmp a b) s) s (.registerIndex b))) ∧
  OperandFetchFaults 0xA7 2

/-! ### The ALU and the flags register -/

/-- R170. The ALU is a function of the operation and two bytes: sum and product modulo 256, bitwise and, and the one-bit
comparison flags; any other operation raises. The result of ADD, MUL and AND, on the values x[a] and x[b] had before, is
what the instruction writes to x[a]; CMP's is what it writes to fl, and it writes no register. -/
def Obligations.AluIsPureFunction : Prop :=
  (∀ (p q : Byte),
    (∃ v, alu .add p q = .ok (.value v) ∧ v.toNat = (p.toNat + q.toNat) % 256) ∧
    (∃ v, alu .mul p q = .ok (.value v) ∧ v.toNat = (p.toNat * q.toNat) % 256) ∧
    (∃ v, alu .and p q = .ok (.value v) ∧ ∀ k < 8, v.getLsbD k = (p.getLsbD k && q.getLsbD k)) ∧
    (∃ v, alu .cmp p q = .ok (.flags v) ∧ (p.toNat = q.toNat → v = 0x01) ∧ (q.toNat < p.toNat → v = 0x02) ∧
      (p.toNat < q.toNat → v = 0x04)) ∧
    ∀ name, alu (.other name) p q = .error (.unsupportedAluOperation name)) ∧
  ∀ (a b : Byte) (ha : a.toNat < 8) (hb : b.toNat < 8) (s : State),
    (∃ t, exec (.add a b) s = .next t ∧ alu .add (s.x ⟨a.toNat, ha⟩) (s.x ⟨b.toNat, hb⟩) = .ok (.value (t.x ⟨a.toNat, ha⟩))) ∧
    (∃ t, exec (.mul a b) s = .next t ∧ alu .mul (s.x ⟨a.toNat, ha⟩) (s.x ⟨b.toNat, hb⟩) = .ok (.value (t.x ⟨a.toNat, ha⟩))) ∧
    (∃ t, exec (.and a b) s = .next t ∧ alu .and (s.x ⟨a.toNat, ha⟩) (s.x ⟨b.toNat, hb⟩) = .ok (.value (t.x ⟨a.toNat, ha⟩))) ∧
    ∃ t, exec (.cmp a b) s = .next t ∧ alu .cmp (s.x ⟨a.toNat, ha⟩) (s.x ⟨b.toNat, hb⟩) = .ok (.flags t.fl) ∧ SameRegs s t

/-- R29. After a CMP, bit 0 says equal, bit 1 greater, bit 2 less, and bits 7:3 are 0. -/
def Obligations.FlagLayoutIsLGE : Prop :=
  ∀ (a b : Byte) (s t : State) (ha : a.toNat < 8) (hb : b.toNat < 8), exec (.cmp a b) s = .next t →
    (t.flE = true ↔ (s.x ⟨a.toNat, ha⟩).toNat = (s.x ⟨b.toNat, hb⟩).toNat) ∧
    (t.flG = true ↔ (s.x ⟨b.toNat, hb⟩).toNat < (s.x ⟨a.toNat, ha⟩).toNat) ∧
    (t.flL = true ↔ (s.x ⟨a.toNat, ha⟩).toNat < (s.x ⟨b.toNat, hb⟩).toNat) ∧
    ∀ k, 3 ≤ k → t.fl.getLsbD k = false

/-- R30. A step leaves fl alone unless it executes CMP, and an executed CMP writes all of it: the flags after it do not
depend on the flags before. -/
def Obligations.FlagsWrittenOnlyByCmp : Prop :=
  ∀ s t : State, step s = .next t →
    (s.cell s.pc ≠ 0xA7 → t.fl = s.fl) ∧
    (s.cell s.pc = 0xA7 → t.fault = none →
      (t.fl = 0x01 ∨ t.fl = 0x02 ∨ t.fl = 0x04) ∧
      ∀ (f : Byte) (u : State), step (s.setFl f) = .next u → u.fl = t.fl)

/-- R31. fl influences nothing: with any other flags, a run of any length goes through the same states but for fl. Only the
debug view reads it. -/
def Obligations.FlagsInfluenceNothing : Prop :=
  ∀ (s : State) (f : Byte) (k : Nat),
    (∃ g : Byte, runSteps k (s.setFl f) = (runSteps k s).setFl g) ∧ (debugView k s).fl = s.fl

/-- Along a run after reset and load, fl keeps RESET_FL until the first CMP has executed, and is exactly one of 0x01,
0x02, 0x04 from then on (the spec derives this in R32 from R30 and R174). -/
def Obligations.FlagValuesAlongRun : Prop :=
  ∀ (p : ResetParams) (bytes : List Byte) (s₀ : State), launch p bytes = .next s₀ →
    ∀ (k : Nat) (t : State), Steps k s₀ t →
      ((∀ (j : Nat) (u v : State), j < k → Steps j s₀ u → step u = .next v →
          ¬ (u.cell u.pc = 0xA7 ∧ v.fault = none)) → t.fl = p.fl) ∧
      ((∃ (j : Nat) (u v : State), j < k ∧ Steps j s₀ u ∧ step u = .next v ∧
          u.cell u.pc = 0xA7 ∧ v.fault = none) → t.fl = 0x01 ∨ t.fl = 0x02 ∨ t.fl = 0x04)

/-! ### Encoding -/

/-- Decoding and encoding agree both ways: a list of bytes decodes to `i` with `rest` left over exactly when it is the
encoding of `i` followed by `rest`, for every instruction and every operand byte. -/
def Obligations.DecodeIffEncoding : Prop :=
  ∀ (bs : List Byte) (i : Instr) (rest : List Byte), decode bs = .ok (i, rest) ↔ bs = encode i ++ rest

/-- R88, R113. Exactly the twelve opcodes have a handler: 244 have none, among them all with op[7:6] = 3. Fetching one
of those raises UnsupportedOpcode and does nothing else (log 8), whatever follows it. -/
def Obligations.OtherOpcodesUnsupported : Prop :=
  (∀ (op : Byte) (rest : List Byte), decode (op :: rest) = .error (.unsupportedOpcode op) ↔ op ∉ supportedOpcodes) ∧
  ((List.range 256).filter fun n => decide (BitVec.ofNat 8 n ∉ supportedOpcodes)).length = 244 ∧
  (∀ op : Byte, operandCount op = 3 → op ∉ supportedOpcodes) ∧
  ∀ s : State, s.enabled = true → s.pc ≤ 255 → s.cell s.pc ∉ supportedOpcodes →
    Raised (step s) s (.unsupportedOpcode (s.cell s.pc))

/-- Words written out from the opcode table's binary column (R86) and the spec's own examples (R94) decode to the
instructions they stand for. -/
def Obligations.SpecWordsDecode : Prop :=
  decode [0b10000010, 0x00, 0x08] = .ok (.ldi 0 8, []) ∧
  decode [0b01000111, 0x00] = .ok (.prn 0, []) ∧
  decode [0b00000001] = .ok (.hlt, []) ∧
  decode [0b10100000, 0x00, 0x01] = .ok (.add 0 1, []) ∧
  decode [0b01010000, 0x01, 0x11] = .ok (.call 1, [0x11])

/-- A word numbered as the opcode table numbers it, placed where the step fetches, is run: the very next step is the
execution of the instruction the decoder reads from it. -/
def Obligations.PlacedWordRuns : Prop :=
  ∀ (s : State) (nbits w : Nat) (i : Instr), s.enabled = true → s.pc ≤ 253 → decodeTableWord nbits w = some i →
    step (s.withFetchWord nbits w) = exec i (s.withFetchWord nbits w)

/-! ### The step -/

/-- When the bytes of an instruction stand at pc, all within memory, an enabled step is the execution of that instruction;
the step adds nothing around it, and the instruction itself writes pc. -/
def Obligations.StepRunsDecodedInstruction : Prop :=
  ∀ (s : State) (i : Instr), s.enabled = true → BytesAt s s.pc (encode i) → step s = exec i s

/-- A step is enabled exactly when run = 1 and fault = none, and then it ends in exactly one of three ways: normally with
run = 1, normally with run = 0 when the instruction was HLT, or with the fault latch set and nothing else changed. -/
def Obligations.StepEndsInOneOfThreeWays : Prop :=
  ∀ s : State,
    ((∃ t, step s = .next t) ↔ s.run = true ∧ s.fault = none) ∧
    ∀ t, step s = .next t →
      (t.fault = none ∧ t.run = true ∧ ¬ (s.pc ≤ 255 ∧ s.cell s.pc = 0x01)) ∨
      (t.fault = none ∧ t.run = false ∧ s.pc ≤ 255 ∧ s.cell s.pc = 0x01) ∨
      ∃ c, t = { s with fault := some c }

/-- A halted or faulted Machine has no transition: the step is stuck and a run leaves every piece of state as it is (the
spec's decision D21, log 8). -/
def Obligations.NoStepWhenHaltedOrFaulted : Prop :=
  ∀ s : State, s.run = false ∨ s.fault ≠ none →
    (∃ r, step s = .fault r) ∧ ∀ k, runSteps k s = s

/-- Faults are precise: a step that sets the fault latch changes nothing else, and run stays 1 (the spec's decision D6,
log 8). -/
def Obligations.FaultsArePrecise : Prop :=
  ∀ s t : State, step s = .next t → t.fault ≠ none → t = { s with fault := t.fault } ∧ t.run = true

/-- R199. A fault is terminal: no step follows, nothing more is output, the latch keeps its cause until a reset (a load
does not clear it), and a faulted state is never a normal end. The latch is the spec's decision D6 (log 8). -/
def Obligations.FaultsAreTerminal : Prop :=
  ∀ s : State, s.fault ≠ none →
    (∀ u, step s ≠ .next u) ∧
    (∀ k, (runSteps k s).out = s.out ∧ (runSteps k s).fault = s.fault) ∧
    (∀ bytes u, load bytes s = .next u → u.fault = s.fault) ∧
    (∀ p, (resetEvent p s).fault = none) ∧
    ¬ EndedNormally s

/-- When several fault conditions hold, the first in the order of the step is the one raised: opcode fetch, opcode
lookup, first and second operand fetch, register a, register b, CALL's return address (the spec's decision D8, log 12). -/
def Obligations.FaultPriorityIsStepOrder : Prop :=
  ∀ s : State, s.enabled = true →
    (255 < s.pc → Raised (step s) s (.memoryIndex s.pc)) ∧
    (s.pc ≤ 255 → s.cell s.pc ∉ supportedOpcodes → Raised (step s) s (.unsupportedOpcode (s.cell s.pc))) ∧
    (s.pc ≤ 255 → s.cell s.pc ∈ supportedOpcodes → 1 ≤ operandCount (s.cell s.pc) → 255 < s.pc + 1 →
      Raised (step s) s (.memoryIndex (s.pc + 1))) ∧
    (s.pc + 1 ≤ 255 → s.cell s.pc ∈ supportedOpcodes → operandCount (s.cell s.pc) = 2 → 255 < s.pc + 2 →
      Raised (step s) s (.memoryIndex (s.pc + 2))) ∧
    (∀ (i : Instr) (a : Byte) (more : List Byte), BytesAt s s.pc (encode i) → i.regOperands = a :: more →
      8 ≤ a.toNat → Raised (step s) s (.registerIndex a)) ∧
    (∀ (i : Instr) (a b : Byte), BytesAt s s.pc (encode i) → i.regOperands = [a, b] →
      a.toNat < 8 → 8 ≤ b.toNat → Raised (step s) s (.registerIndex b)) ∧
    (∀ a : Byte, BytesAt s s.pc (encode (.call a)) → a.toNat < 8 → 255 < s.pc + 2 →
      Raised (step s) s (.returnAddress (s.pc + 2)))

/-- R116. The program counter after a step that executed an instruction: pc + n + 1 without wrap-around when the opcode's
sets-PC flag is 0, the zero-extended target when it is 1 (x[a] after the push for CALL, the popped byte for RET). That a result of 256
is kept is also the spec's decision D1 (log 4). -/
def Obligations.ProgramCounterMultiplexer : Prop :=
  ∀ s t : State, step s = .next t →
    (t.fault = none → setsPc (s.cell s.pc) = false → t.pc = s.pc + operandCount (s.cell s.pc) + 1) ∧
    (t.fault = none → s.cell s.pc = 0x50 → ∃ ha : (s.cell (s.pc + 1)).toNat < 8,
      t.pc = (t.x ⟨(s.cell (s.pc + 1)).toNat, ha⟩).toNat) ∧
    (t.fault = none → s.cell s.pc = 0x11 → t.pc = (s.cell (s.x sp).toNat).toNat)

/-- From a state that satisfies the invariant, an out-of-range memory fault always records 256, and occurs only at
the opcode fetch at 256, at operand byte 1 when pc = 255, and at operand byte 2 when pc = 254 (pc does not
wrap: the spec's decision D1, log 4). -/
def Obligations.MemoryFaultsRecord256 : Prop :=
  ∀ (s t : State) (addr : Nat), s.Inv → step s = .next t → t.fault = some (.memoryIndex addr) →
    addr = 256 ∧
    (s.pc = 256 ∨ (s.pc = 255 ∧ 1 ≤ operandCount (s.cell s.pc)) ∨ (s.pc = 254 ∧ operandCount (s.cell s.pc) = 2))

/-- From a state that satisfies the invariant, an out-of-range return address is raised by CALL at pc = 254 alone and records
256 (the spec's decision D11, log 11). -/
def Obligations.ReturnAddressFaultOnlyAt254 : Prop :=
  ∀ (s t : State) (addr : Nat), s.Inv → step s = .next t → t.fault = some (.returnAddress addr) →
    addr = 256 ∧ s.pc = 254 ∧ s.cell s.pc = 0x50

/-- A register-index fault records an operand byte of the faulting instruction that is above 7, not masked. -/
def Obligations.RegisterFaultRecordsOperandByte : Prop :=
  ∀ (s t : State) (b : Byte), step s = .next t → t.fault = some (.registerIndex b) →
    8 ≤ b.toNat ∧ ∃ i : Instr, BytesAt s s.pc (encode i) ∧ b ∈ i.regOperands

/-- No step raises UnsupportedALUOperation, in any state (the spec derives this in R176). -/
def Obligations.AluFaultUnreachable : Prop :=
  ∀ (s t : State) (name : String), step s = .next t → t.fault ≠ some (.unsupportedAluOperation name)

/-- The running flag is 1 after reset and after every step but one that executes HLT; the load leaves it alone. -/
def Obligations.RunClearedOnlyByHlt : Prop :=
  (∀ p, (resetWith p).run = true) ∧
  (∀ (bytes : List Byte) (s t : State), load bytes s = .next t → t.run = s.run) ∧
  ∀ s t : State, step s = .next t → (t.run = false ↔ s.pc ≤ 255 ∧ s.cell s.pc = 0x01)

/-! ### Memory -/

/-- MemRead raises above 255, answers the cell's value otherwise, and always answers at an address that is an 8-bit
value (the spec's R52; where the bound check can fail in a step is `Obligations.MemoryFaultsRecord256`). -/
def Obligations.MemReadIsBoundsChecked : Prop :=
  ∀ (addr : Nat) (s : State),
    (255 < addr → memRead addr s = .error (.memoryIndex addr)) ∧
    (addr ≤ 255 → memRead addr s = .ok (s.cell addr)) ∧
    ∀ v : Byte, memRead v.toNat s = .ok (s.cell v.toNat)

/-- MemWrite raises above 255; otherwise the cell takes the value, no other cell changes, and nothing but memory
does; it never raises at an address that is an 8-bit value (the spec derives the primitive in R53). -/
def Obligations.MemWriteChangesOneCell : Prop :=
  ∀ (addr : Nat) (v : Byte) (s : State),
    (255 < addr → memWrite addr v s = .error (.memoryIndex addr)) ∧
    (addr ≤ 255 → ∃ t, memWrite addr v s = .ok t ∧ t.cell addr = v ∧ SameMemBut s t addr ∧ t = { s with mem := t.mem }) ∧
    ∀ a : Byte, ∃ t, memWrite a.toNat v s = .ok t

/-- In the canonical form, memories that read alike at every address are equal lists. (The form is the model's.) -/
def Obligations.CanonicalMemoryIsUnique : Prop :=
  ∀ m m' : Memory, Memory.wf m = true → Memory.wf m' = true → (∀ a ≤ 255, Memory.read m a = Memory.read m' a) → m = m'

/-- Memory is written by ST, PUSH and CALL alone, and only at the one address that instruction stores to. -/
def Obligations.MemoryWrittenOnlyAtStoreAddress : Prop :=
  ∀ s t : State, step s = .next t →
    (s.cell s.pc ≠ 0x84 → s.cell s.pc ≠ 0x45 → s.cell s.pc ≠ 0x50 → SameMem s t) ∧
    (t.fault ≠ none → SameMem s t) ∧
    ∀ i : Instr, BytesAt s s.pc (encode i) → ∀ a : Nat, storeAddress i s ≠ some a → t.cell a = s.cell a

/-- A litmus of instruction-fetch coherence: an ST that writes the byte 0x01, HLT's opcode, over the next instruction's
opcode is followed by a halt, whatever stood there. (The general rule follows from what each storing instruction stores and
`Obligations.StepRunsDecodedInstruction`.) -/
def Obligations.HltStoredOverNextOpcodeHalts : Prop :=
  ∀ (s : State) (a b : Byte) (ha : a.toNat < 8) (hb : b.toNat < 8),
    s.enabled = true → BytesAt s s.pc (encode (.st a b)) →
    (s.x ⟨a.toNat, ha⟩).toNat = s.pc + 3 → s.x ⟨b.toNat, hb⟩ = 0x01 →
    ∃ t u, step s = .next t ∧ step t = .next u ∧ u.run = false ∧ u.fault = none ∧ u.pc = s.pc + 4

/-! ### The stack -/

/-- R150. StackPush decrements the stack pointer modulo 256, then writes the value at the cell it addresses; it cannot
fault and changes nothing else. -/
def Obligations.StackPushDecrementsThenWrites : Prop :=
  ∀ (v : Byte) (s : State), ∃ t, stackPush v s = .ok t ∧
    (t.x sp).toNat = ((s.x sp).toNat + 255) % 256 ∧ t.cell (t.x sp).toNat = v ∧
    SameRegsBut s t (· = sp) ∧ SameMemBut s t (t.x sp).toNat ∧ t = { s with regs := t.regs, mem := t.mem }

/-- R151. StackPop reads the cell the stack pointer addresses, then increments the stack pointer modulo 256; it cannot
fault and writes no cell. -/
def Obligations.StackPopReadsThenIncrements : Prop :=
  ∀ s : State, ∃ t, stackPop s = .ok (s.cell (s.x sp).toNat, t) ∧
    (t.x sp).toNat = ((s.x sp).toNat + 1) % 256 ∧ SameRegsBut s t (· = sp) ∧ t = { s with regs := t.regs }

/-- PUSH followed by POP into the same register, register 7 included and at every value of the stack pointer, restores every
register, provided the pushed byte does not land on the two bytes of the POP; the byte stays in memory. -/
def Obligations.PushThenPopRestoresRegisters : Prop :=
  ∀ (s : State) (a : Byte) (ha : a.toNat < 8),
    s.enabled = true → BytesAt s s.pc (encode (.push a) ++ encode (.pop a)) →
    (s.x sp - 1).toNat ≠ s.pc + 2 → (s.x sp - 1).toNat ≠ s.pc + 3 →
    ∃ t u, step s = .next t ∧ step t = .next u ∧
      SameRegs s u ∧ u.cell (s.x sp - 1).toNat = s.x ⟨a.toNat, ha⟩ ∧ SameMemBut s u (s.x sp - 1).toNat ∧
      u.pc = s.pc + 4 ∧ u.fl = s.fl ∧ u.out = s.out ∧ SameStatus s u

/-- CALL followed by RET at the address called returns to the instruction after the CALL and restores every register, the
stack pointer among them. -/
def Obligations.CallThenRetReturns : Prop :=
  ∀ (s : State) (a : Byte), a.toNat < 8 →
    s.enabled = true → BytesAt s s.pc (encode (.call a)) → s.pc + 2 ≤ 255 →
    ∃ t, step s = .next t ∧
      (t.cell t.pc = 0x11 → ∃ u, step t = .next u ∧
        u.pc = s.pc + 2 ∧ SameRegs s u ∧ (u.cell (s.x sp - 1).toNat).toNat = s.pc + 2 ∧
        SameMemBut s u (s.x sp - 1).toNat ∧ u.fl = s.fl ∧ u.out = s.out ∧ SameStatus s u)

/-! ### Output -/

/-- PRN appends the value its register had at the start of the step; every other step and every faulting step appends
nothing; after a halt or a fault nothing more is output (the spec derives this in R133). -/
def Obligations.OutputInProgramOrder : Prop :=
  (∀ s t : State, step s = .next t →
    (s.cell s.pc ≠ 0x47 → t.out = s.out) ∧
    (t.fault ≠ none → t.out = s.out) ∧
    (t.fault = none → s.cell s.pc = 0x47 → ∃ ha : (s.cell (s.pc + 1)).toNat < 8,
      t.out = s.out ++ [s.x ⟨(s.cell (s.pc + 1)).toNat, ha⟩])) ∧
  ∀ (s : State) (k : Nat), s.run = false ∨ s.fault ≠ none → (runSteps k s).out = s.out

/-- The core cannot read its output history: from any other history a run of any length appends the same values and goes
through the same states. -/
def Obligations.OutputHistoryInfluencesNothing : Prop :=
  ∀ (s : State) (o : List Byte) (k : Nat), ∃ new : List Byte,
    (runSteps k s).out = s.out ++ new ∧ runSteps k { s with out := o } = { runSteps k s with out := o ++ new }

/-! ### Reset, load, run, and the views from outside -/

/-- Reset puts every piece of state at the value the spec names, for every value of the open parameters RESET_GPR, RESET_FL
and INIT_MEM. The clauses on run, fault and out rest on the spec's decisions D5, D6 and D16 (log 1, 2, 3, 8, 16). -/
def Obligations.ResetSetsEveryPiece : Prop :=
  ∀ p : ResetParams,
    (resetWith p).pc = 0 ∧ (resetWith p).x 7 = 0xF4 ∧
    (∀ (i : Nat) (h : i < 7), (resetWith p).x ⟨i, by omega⟩ = p.gpr[i]) ∧
    (resetWith p).fl = p.fl ∧
    (∀ (a : Nat) (h : a < 256), (resetWith p).cell a = p.initMem[a]) ∧
    (resetWith p).run = true ∧ (resetWith p).fault = none ∧ (resetWith p).out = []

/-- The model's State.reset is the reset state for one choice of the open parameters: 0 in registers 0 to 6, in fl and in
every cell. That choice is the model's (notes/assumptions/1.md, 2.md, 3.md), not the spec's. -/
def Obligations.ModelResetIsOneChoice : Prop :=
  State.reset = resetWith Config.resetParams

/-- After reset and the load of k ≤ 256 bytes, cell j holds byte j for every j < k, the cells from k on hold INIT_MEM,
and no other piece of state differs from reset; a longer sequence is refused (the spec's decision
D17, log 6). -/
def Obligations.LoadWritesFromAddressZero : Prop :=
  ∀ (p : ResetParams) (bytes : List Byte),
    (bytes.length ≤ 256 → ∃ t, launch p bytes = .next t ∧
      (∀ (j : Nat) (h : j < bytes.length), t.cell j = bytes[j]) ∧
      (∀ (a : Nat) (h : a < 256), bytes.length ≤ a → t.cell a = p.initMem[a]) ∧
      t = { resetWith p with mem := t.mem }) ∧
    (256 < bytes.length → launch p bytes = .refused (.loadTooLong bytes.length))

/-- A run that was begun with a step enabled and returns has ended normally, by an HLT, with pc at the byte after its
opcode, or in failure, with nothing but the fault latch changed by its last step (the spec's decision
D6, log 8); either end is terminal. -/
def Obligations.RunEndsByHaltOrFault : Prop :=
  ∀ s t : State, s.enabled = true → RunReturns s t →
    (∀ v, step t ≠ .next v) ∧
    ∃ (k : Nat) (u : State), Steps k s u ∧ step u = .next t ∧
      ((EndedNormally t ∧ u.cell u.pc = 0x01 ∧ t.pc = u.pc + 1) ∨
       (EndedInFailure t ∧ t = { u with fault := t.fault }))

/-- The state a run returns in is unique: however many rounds are allowed beyond the end, they change nothing. -/
def Obligations.RunResultIsUnique : Prop :=
  ∀ s t u : State, RunReturns s t → RunReturns s u → t = u

/-- The cause codes and sub-kinds of the fault table (the spec's own numbers, which no instruction can read), and the status
output. -/
def Obligations.FaultCodesAndStatus : Prop :=
  (∀ op, (FaultCause.unsupportedOpcode op).code = 1 ∧ (FaultCause.unsupportedOpcode op).subKind = none) ∧
  (∀ n, (FaultCause.unsupportedAluOperation n).code = 2 ∧ (FaultCause.unsupportedAluOperation n).subKind = none) ∧
  (∀ a, (FaultCause.memoryIndex a).code = 3 ∧ (FaultCause.memoryIndex a).subKind = some 0) ∧
  (∀ i, (FaultCause.registerIndex i).code = 3 ∧ (FaultCause.registerIndex i).subKind = some 1) ∧
  (∀ a, (FaultCause.returnAddress a).code = 3 ∧ (FaultCause.returnAddress a).subKind = some 2) ∧
  ∀ s, status s = (s.run, s.fault)

/-- The debug view shows pc, fl, the bytes at pc, pc+1 and pc+2 wherever they are within memory, and the eight
registers; beyond memory it shows a free value, of which nothing is said (the spec's decision D19, log 7). -/
def Obligations.DebugViewShowsState : Prop :=
  ∀ (k : Nat) (s : State),
    (debugView k s).pc = s.pc ∧ (debugView k s).fl = s.fl ∧
    (∀ (j : Nat) (h : j < 3), s.pc + j ≤ 255 → (debugView k s).bytes[j] = s.cell (s.pc + j)) ∧
    ∀ r : RegIdx, (debugView k s).regs[r] = s.x r

/-! ### The invariant -/

/-- Every step keeps the invariant, from any state that satisfies it: memory stays in its canonical form and within 0 to
255, pc stays in 0 to 256, and a faulted Machine has run = 1. -/
def Obligations.StepKeepsInvariant : Prop :=
  ∀ s t : State, s.Inv → step s = .next t → t.Inv

/-- The model's reset state satisfies the invariant. -/
def Obligations.ResetMeetsInvariant : Prop := State.reset.Inv

/-- The reset state satisfies the invariant for every value of the open parameters, and a load keeps it. -/
def Obligations.ResetAndLoadMeetInvariant : Prop :=
  (∀ p, (resetWith p).Inv) ∧
  ∀ (bytes : List Byte) (s t : State), s.Inv → load bytes s = .next t → t.Inv
end

