-- ==== Sys2Proof/Laws/State.lean ====
section
/-! SUPPORT. One lemma per field per update of State, so that no proof unfolds a record update. -/

namespace Sys2Proof.Machine

variable (s : State)

@[simp] theorem State.setX_regs (r : RegIdx) (v : Byte) : (s.setX r v).regs = s.regs.set r v := rfl
@[simp] theorem State.setX_pc (r : RegIdx) (v : Byte) : (s.setX r v).pc = s.pc := rfl
@[simp] theorem State.setX_fl (r : RegIdx) (v : Byte) : (s.setX r v).fl = s.fl := rfl
@[simp] theorem State.setX_mem (r : RegIdx) (v : Byte) : (s.setX r v).mem = s.mem := rfl
@[simp] theorem State.setX_run (r : RegIdx) (v : Byte) : (s.setX r v).run = s.run := rfl
@[simp] theorem State.setX_fault (r : RegIdx) (v : Byte) : (s.setX r v).fault = s.fault := rfl
@[simp] theorem State.setX_out (r : RegIdx) (v : Byte) : (s.setX r v).out = s.out := rfl
@[simp] theorem State.setX_cell (r : RegIdx) (v : Byte) (n : Nat) : (s.setX r v).cell n = s.cell n := rfl

@[simp] theorem State.setCell_regs (a : Nat) (v : Byte) : (s.setCell a v).regs = s.regs := rfl
@[simp] theorem State.setCell_pc (a : Nat) (v : Byte) : (s.setCell a v).pc = s.pc := rfl
@[simp] theorem State.setCell_fl (a : Nat) (v : Byte) : (s.setCell a v).fl = s.fl := rfl
@[simp] theorem State.setCell_mem (a : Nat) (v : Byte) : (s.setCell a v).mem = Memory.write s.mem a v := rfl
@[simp] theorem State.setCell_run (a : Nat) (v : Byte) : (s.setCell a v).run = s.run := rfl
@[simp] theorem State.setCell_fault (a : Nat) (v : Byte) : (s.setCell a v).fault = s.fault := rfl
@[simp] theorem State.setCell_out (a : Nat) (v : Byte) : (s.setCell a v).out = s.out := rfl
@[simp] theorem State.setCell_x (a : Nat) (v : Byte) (q : RegIdx) : (s.setCell a v).x q = s.x q := rfl

@[simp] theorem State.setFl_regs (v : Byte) : (s.setFl v).regs = s.regs := rfl
@[simp] theorem State.setFl_pc (v : Byte) : (s.setFl v).pc = s.pc := rfl
@[simp] theorem State.setFl_fl (v : Byte) : (s.setFl v).fl = v := rfl
@[simp] theorem State.setFl_mem (v : Byte) : (s.setFl v).mem = s.mem := rfl
@[simp] theorem State.setFl_run (v : Byte) : (s.setFl v).run = s.run := rfl
@[simp] theorem State.setFl_fault (v : Byte) : (s.setFl v).fault = s.fault := rfl
@[simp] theorem State.setFl_out (v : Byte) : (s.setFl v).out = s.out := rfl
@[simp] theorem State.setFl_x (v : Byte) (q : RegIdx) : (s.setFl v).x q = s.x q := rfl
@[simp] theorem State.setFl_cell (v : Byte) (n : Nat) : (s.setFl v).cell n = s.cell n := rfl

@[simp] theorem State.setPc_regs (p : Nat) : (s.setPc p).regs = s.regs := rfl
@[simp] theorem State.setPc_pc (p : Nat) : (s.setPc p).pc = p := rfl
@[simp] theorem State.setPc_fl (p : Nat) : (s.setPc p).fl = s.fl := rfl
@[simp] theorem State.setPc_mem (p : Nat) : (s.setPc p).mem = s.mem := rfl
@[simp] theorem State.setPc_run (p : Nat) : (s.setPc p).run = s.run := rfl
@[simp] theorem State.setPc_fault (p : Nat) : (s.setPc p).fault = s.fault := rfl
@[simp] theorem State.setPc_out (p : Nat) : (s.setPc p).out = s.out := rfl
@[simp] theorem State.setPc_x (p : Nat) (q : RegIdx) : (s.setPc p).x q = s.x q := rfl
@[simp] theorem State.setPc_cell (p : Nat) (n : Nat) : (s.setPc p).cell n = s.cell n := rfl

@[simp] theorem State.setRun_regs (b : Bool) : (s.setRun b).regs = s.regs := rfl
@[simp] theorem State.setRun_pc (b : Bool) : (s.setRun b).pc = s.pc := rfl
@[simp] theorem State.setRun_fl (b : Bool) : (s.setRun b).fl = s.fl := rfl
@[simp] theorem State.setRun_mem (b : Bool) : (s.setRun b).mem = s.mem := rfl
@[simp] theorem State.setRun_run (b : Bool) : (s.setRun b).run = b := rfl
@[simp] theorem State.setRun_fault (b : Bool) : (s.setRun b).fault = s.fault := rfl
@[simp] theorem State.setRun_out (b : Bool) : (s.setRun b).out = s.out := rfl
@[simp] theorem State.setRun_x (b : Bool) (q : RegIdx) : (s.setRun b).x q = s.x q := rfl
@[simp] theorem State.setRun_cell (b : Bool) (n : Nat) : (s.setRun b).cell n = s.cell n := rfl

@[simp] theorem State.setFault_regs (c : FaultCause) : (s.setFault c).regs = s.regs := rfl
@[simp] theorem State.setFault_pc (c : FaultCause) : (s.setFault c).pc = s.pc := rfl
@[simp] theorem State.setFault_fl (c : FaultCause) : (s.setFault c).fl = s.fl := rfl
@[simp] theorem State.setFault_mem (c : FaultCause) : (s.setFault c).mem = s.mem := rfl
@[simp] theorem State.setFault_run (c : FaultCause) : (s.setFault c).run = s.run := rfl
@[simp] theorem State.setFault_fault (c : FaultCause) : (s.setFault c).fault = some c := rfl
@[simp] theorem State.setFault_out (c : FaultCause) : (s.setFault c).out = s.out := rfl
@[simp] theorem State.setFault_x (c : FaultCause) (q : RegIdx) : (s.setFault c).x q = s.x q := rfl
@[simp] theorem State.setFault_cell (c : FaultCause) (n : Nat) : (s.setFault c).cell n = s.cell n := rfl

@[simp] theorem State.output_regs (v : Byte) : (s.output v).regs = s.regs := rfl
@[simp] theorem State.output_pc (v : Byte) : (s.output v).pc = s.pc := rfl
@[simp] theorem State.output_fl (v : Byte) : (s.output v).fl = s.fl := rfl
@[simp] theorem State.output_mem (v : Byte) : (s.output v).mem = s.mem := rfl
@[simp] theorem State.output_run (v : Byte) : (s.output v).run = s.run := rfl
@[simp] theorem State.output_fault (v : Byte) : (s.output v).fault = s.fault := rfl
@[simp] theorem State.output_out (v : Byte) : (s.output v).out = s.out ++ [v] := rfl
@[simp] theorem State.output_x (v : Byte) (q : RegIdx) : (s.output v).x q = s.x q := rfl
@[simp] theorem State.output_cell (v : Byte) (n : Nat) : (s.output v).cell n = s.cell n := rfl

theorem State.setX_x_same (r : RegIdx) (v : Byte) : (s.setX r v).x r = v := by
  simp [State.setX, State.x]

theorem State.setX_x_ne {r q : RegIdx} (v : Byte) (h : q ≠ r) : (s.setX r v).x q = s.x q := by
  have h' : r.val ≠ q.val := fun e => h (Fin.ext e.symm)
  simp [State.setX, State.x, Vector.getElem_set_ne _ _ h']

/-- What every register reads after a write to one of them. -/
@[simp] theorem State.setX_x (r q : RegIdx) (v : Byte) : (s.setX r v).x q = if q = r then v else s.x q := by
  by_cases h : q = r
  · subst h; simp [State.setX_x_same]
  · simp [h, State.setX_x_ne]

theorem State.enabled_iff : s.enabled = true ↔ s.run = true ∧ s.fault = none := by
  simp [State.enabled]

end Sys2Proof.Machine
end

