-- ==== Sys2Proof/Laws/Memory.lean ====
section
/-! SUPPORT. The laws of memory: what a read sees after a write, that every operation keeps the canonical form, and that in
that form equal contents are equal lists. -/

namespace Sys2Proof.Machine

/-! ### Reading after writing -/

theorem Memory.read_insert (m : Memory) (a b : Nat) (v : Byte) :
    Memory.read (Memory.insert m a v) b = if b = a then v else Memory.read m b := by
  induction m with
  | nil => simp only [Memory.insert, Memory.read, eq_comm]
  | cons c m ih =>
    obtain ⟨k, w⟩ := c
    simp only [Memory.insert]
    split
    · simp only [Memory.read]; grind
    · split
      · simp only [Memory.read]; grind
      · simp only [Memory.read, ih]; grind

theorem Memory.read_erase (m : Memory) (a b : Nat) :
    Memory.read (m.filter fun c => decide (c.1 ≠ a)) b = if b = a then Config.unlistedByte else Memory.read m b := by
  induction m with
  | nil => simp [Memory.read]
  | cons c m ih =>
    obtain ⟨k, w⟩ := c
    by_cases h : k = a
    · simp only [List.filter_cons, h, ne_eq, not_true_eq_false, decide_false, Bool.false_eq_true, if_false, ih,
        Memory.read]
      grind
    · simp only [List.filter_cons, ne_eq, h, not_false_eq_true, decide_true, if_true, Memory.read]
      rw [ih]
      grind

/-- A read after a write gives the value written at that address and what was there before at every other (R53, R62). -/
@[simp] theorem Memory.read_write (m : Memory) (a b : Nat) (v : Byte) :
    Memory.read (Memory.write m a v) b = if b = a then v else Memory.read m b := by
  unfold Memory.write
  split
  · rename_i h; rw [Memory.read_erase, h]
  · exact Memory.read_insert m a b v

@[simp] theorem State.setCell_cell (s : State) (a b : Nat) (v : Byte) :
    (s.setCell a v).cell b = if b = a then v else s.cell b :=
  Memory.read_write s.mem a b v

/-- What an address reads after a sequence of bytes has been placed (R226). -/
theorem Memory.read_place (m : Memory) (a : Nat) (bs : List Byte) (b : Nat) :
    Memory.read (Memory.place m a bs) b =
      if h : a ≤ b ∧ b ≤ 255 ∧ b - a < bs.length then bs[b - a] else Memory.read m b := by
  induction bs generalizing m a with
  | nil => simp [Memory.place]
  | cons v bs ih =>
    rw [Memory.place, ih]
    by_cases h1 : b = a
    · subst h1
      by_cases h2 : b ≤ 255 <;> simp [h2]
    · have hw : Memory.read (if a ≤ 255 then Memory.write m a v else m) b = Memory.read m b := by
        split <;> simp [h1]
      rw [hw]
      by_cases h3 : a + 1 ≤ b ∧ b ≤ 255 ∧ b - (a + 1) < bs.length
      · have e : b - a = b - (a + 1) + 1 := by omega
        have h4 : a ≤ b ∧ b ≤ 255 ∧ b - a < (v :: bs).length := by simp; omega
        rw [dif_pos h3, dif_pos h4]
        simp [e]
      · have h4 : ¬ (a ≤ b ∧ b ≤ 255 ∧ b - a < (v :: bs).length) := by simp; omega
        rw [dif_neg h3, dif_neg h4]

/-! ### The canonical form -/

theorem Memory.wf_cons (a : Nat) (v : Byte) (m : Memory) :
    Memory.wf ((a, v) :: m) = true ↔
      a ≤ 255 ∧ v ≠ Config.unlistedByte ∧ (∀ c ∈ m, a < c.1) ∧ Memory.wf m = true := by
  simp [Memory.wf, and_assoc]

theorem Memory.mem_insert {m : Memory} {a : Nat} {v : Byte} {c : Host.Cell} (h : c ∈ Memory.insert m a v) :
    c = (a, v) ∨ c ∈ m := by
  induction m with
  | nil => simpa [Memory.insert] using h
  | cons d m ih =>
    obtain ⟨k, w⟩ := d
    simp only [Memory.insert] at h
    split at h
    · simpa using h
    · split at h <;> simp only [List.mem_cons] at h ⊢
      · tauto
      · rcases h with h | h
        · tauto
        · rcases ih h with h | h <;> tauto

theorem Memory.wf_insert {m : Memory} (hm : Memory.wf m = true) {a : Nat} (ha : a ≤ 255) {v : Byte}
    (hv : v ≠ Config.unlistedByte) : Memory.wf (Memory.insert m a v) = true := by
  induction m with
  | nil => simp [Memory.insert, Memory.wf, ha, hv]
  | cons c m ih =>
    obtain ⟨k, w⟩ := c
    obtain ⟨hk, hw, hall, hm'⟩ := (Memory.wf_cons k w m).1 hm
    simp only [Memory.insert]
    split
    · rename_i hak
      refine (Memory.wf_cons _ _ _).2 ⟨ha, hv, ?_, hm⟩
      intro c hc
      rcases List.mem_cons.1 hc with rfl | hc
      · exact hak
      · exact hak.trans (hall c hc)
    · split
      · rename_i _ hak
        subst hak
        exact (Memory.wf_cons _ _ _).2 ⟨ha, hv, hall, hm'⟩
      · refine (Memory.wf_cons _ _ _).2 ⟨hk, hw, ?_, ih hm'⟩
        intro c hc
        rcases Memory.mem_insert hc with rfl | hc
        · simp only; omega
        · exact hall c hc

theorem Memory.wf_filter {m : Memory} (hm : Memory.wf m = true) (p : Host.Cell → Bool) :
    Memory.wf (m.filter p) = true := by
  induction m with
  | nil => rfl
  | cons c m ih =>
    obtain ⟨k, w⟩ := c
    obtain ⟨hk, hw, hall, hm'⟩ := (Memory.wf_cons k w m).1 hm
    rw [List.filter_cons]
    split
    · exact (Memory.wf_cons _ _ _).2 ⟨hk, hw, fun c hc => hall c (List.mem_filter.1 hc).1, ih hm'⟩
    · exact ih hm'

/-- A write keeps the canonical form. -/
theorem Memory.wf_write {m : Memory} (hm : Memory.wf m = true) {a : Nat} (ha : a ≤ 255) (v : Byte) :
    Memory.wf (Memory.write m a v) = true := by
  unfold Memory.write
  split
  · exact Memory.wf_filter hm _
  · exact Memory.wf_insert hm ha ‹_›

/-- Placing a sequence of bytes keeps the canonical form. -/
theorem Memory.wf_place {m : Memory} (hm : Memory.wf m = true) (a : Nat) (bs : List Byte) :
    Memory.wf (Memory.place m a bs) = true := by
  induction bs generalizing m a with
  | nil => exact hm
  | cons v bs ih =>
    rw [Memory.place]
    apply ih
    split
    · exact Memory.wf_write hm ‹_› v
    · exact hm

theorem Memory.reset_wf : Memory.wf State.reset.mem = true := rfl

/-- An address below every listed one reads as unlisted. -/
theorem Memory.read_of_lt {m : Memory} {a : Nat} (h : ∀ c ∈ m, a < c.1) : Memory.read m a = Config.unlistedByte := by
  induction m with
  | nil => rfl
  | cons c m ih =>
    obtain ⟨k, w⟩ := c
    have hk : a < k := h (k, w) (by simp)
    rw [Memory.read, if_neg (by omega)]
    exact ih fun c hc => h c (by simp [hc])

end Sys2Proof.Machine
end

