-- ==== Sys2Proof/Laws/Ops.lean ====
section
/-! SUPPORT. One lemma per shared operation: everything it can do. -/

namespace Sys2Proof.Machine

/-! ### The memory interface (R52, R53) -/

theorem memRead_of_le {a : Nat} (h : a ≤ 255) (s : State) : memRead a s = .ok (s.cell a) :=
  if_neg (by omega)

theorem memRead_of_gt {a : Nat} (h : 255 < a) (s : State) : memRead a s = .error (.memoryIndex a) :=
  if_pos h

theorem memWrite_of_le {a : Nat} (h : a ≤ 255) (v : Byte) (s : State) : memWrite a v s = .ok (s.setCell a v) :=
  if_neg (by omega)

theorem memWrite_of_gt {a : Nat} (h : 255 < a) (v : Byte) (s : State) : memWrite a v s = .error (.memoryIndex a) :=
  if_pos h

theorem byte_le (v : Byte) : v.toNat ≤ 255 := by have := v.isLt; omega

/-- A read at an 8-bit address never faults (R52). -/
@[simp] theorem memRead_byte (v : Byte) (s : State) : memRead v.toNat s = .ok (s.cell v.toNat) :=
  memRead_of_le (byte_le v) s

/-- A write at an 8-bit address never faults (R53). -/
@[simp] theorem memWrite_byte (a v : Byte) (s : State) : memWrite a.toNat v s = .ok (s.setCell a.toNat v) :=
  memWrite_of_le (byte_le a) v s

/-! ### The stack primitives (R150, R151): neither can fault (R157) -/

@[simp] theorem stackPush_eq (v : Byte) (s : State) :
    stackPush v s = .ok ((s.setX sp (s.x sp - 1)).setCell (s.x sp - 1).toNat v) := by
  rw [stackPush, State.setX_x, if_pos rfl, memWrite_byte]

@[simp] theorem stackPop_eq (s : State) : stackPop s = .ok (s.cell (s.x sp).toNat, s.setX sp (s.x sp + 1)) := by
  simp [stackPop]

/-! ### Operands (R194) -/

theorem checkReg_of_lt {a : Byte} (h : a.toNat < 8) : checkReg a = .ok ⟨a.toNat, h⟩ := dif_pos h

theorem checkReg_of_ge {a : Byte} (h : 8 ≤ a.toNat) : checkReg a = .error (.registerIndex a) := dif_neg (by omega)

theorem withReg_of_lt {a : Byte} (h : a.toNat < 8) (s : State) (k : RegIdx → Result) :
    withReg a s k = k ⟨a.toNat, h⟩ := by
  simp [withReg, checkReg_of_lt h]

theorem withReg_of_ge {a : Byte} (h : 8 ≤ a.toNat) (s : State) (k : RegIdx → Result) :
    withReg a s k = raise (.registerIndex a) s := by
  simp [withReg, checkReg_of_ge h]

theorem withRegs_of_lt {a b : Byte} (ha : a.toNat < 8) (hb : b.toNat < 8) (s : State) (k : RegIdx → RegIdx → Result) :
    withRegs a b s k = k ⟨a.toNat, ha⟩ ⟨b.toNat, hb⟩ := by
  simp [withRegs, withReg_of_lt ha, withReg_of_lt hb]

theorem withRegs_of_ge_left {a : Byte} (ha : 8 ≤ a.toNat) (b : Byte) (s : State) (k : RegIdx → RegIdx → Result) :
    withRegs a b s k = raise (.registerIndex a) s := by
  simp [withRegs, withReg_of_ge ha]

theorem withRegs_of_ge_right {a b : Byte} (ha : a.toNat < 8) (hb : 8 ≤ b.toNat) (s : State)
    (k : RegIdx → RegIdx → Result) : withRegs a b s k = raise (.registerIndex b) s := by
  simp [withRegs, withReg_of_lt ha, withReg_of_ge hb]

/-- Everything `withReg` can answer. -/
theorem withReg_cases (a : Byte) (s : State) (k : RegIdx → Result) :
    (∃ h : a.toNat < 8, withReg a s k = k ⟨a.toNat, h⟩) ∨
      (8 ≤ a.toNat ∧ withReg a s k = raise (.registerIndex a) s) := by
  by_cases h : a.toNat < 8
  · exact .inl ⟨h, withReg_of_lt h s k⟩
  · exact .inr ⟨by omega, withReg_of_ge (by omega) s k⟩

/-- Everything `withRegs` can answer. -/
theorem withRegs_cases (a b : Byte) (s : State) (k : RegIdx → RegIdx → Result) :
    (∃ (ha : a.toNat < 8) (hb : b.toNat < 8), withRegs a b s k = k ⟨a.toNat, ha⟩ ⟨b.toNat, hb⟩) ∨
      (8 ≤ a.toNat ∧ withRegs a b s k = raise (.registerIndex a) s) ∨
      (a.toNat < 8 ∧ 8 ≤ b.toNat ∧ withRegs a b s k = raise (.registerIndex b) s) := by
  by_cases ha : a.toNat < 8
  · by_cases hb : b.toNat < 8
    · exact .inl ⟨ha, hb, withRegs_of_lt ha hb s k⟩
    · exact .inr (.inr ⟨ha, by omega, withRegs_of_ge_right ha (by omega) s k⟩)
  · exact .inr (.inl ⟨by omega, withRegs_of_ge_left (by omega) b s k⟩)

/-! ### The end of a step (R116, R197) -/

theorem commit_error (i : Instr) (s : State) (c : FaultCause) : commit i s (.error c) = raise c s := rfl

@[simp] theorem commit_ok (i : Instr) (s : State) (p : Byte × State) :
    commit i s (.ok p) = .next (p.2.setPc (pcMux i.opcode p.1 s.pc)) := rfl

@[simp] theorem except_map_ok {ε α β : Type} (f : α → β) (x : α) : (Except.ok x : Except ε α).map f = .ok (f x) := rfl

@[simp] theorem commitSequential_eq (i : Instr) (s t : State) :
    commitSequential i s t = .next (t.setPc (pcMux i.opcode noTarget s.pc)) := rfl

/-! ### The multiplexer, per opcode (R116, R123) -/

section Mux
variable (a b t : Byte) (pc : Nat)
@[simp] theorem pcMux_hlt : pcMux (Instr.opcode .hlt) t pc = pc + 1 := by simp [pcMux, Instr.opcode, setsPc, operandCount]
@[simp] theorem pcMux_ldi : pcMux (Instr.opcode (.ldi a b)) t pc = pc + 3 := by simp [pcMux, Instr.opcode, setsPc, operandCount]
@[simp] theorem pcMux_prn : pcMux (Instr.opcode (.prn a)) t pc = pc + 2 := by simp [pcMux, Instr.opcode, setsPc, operandCount]
@[simp] theorem pcMux_st : pcMux (Instr.opcode (.st a b)) t pc = pc + 3 := by simp [pcMux, Instr.opcode, setsPc, operandCount]
@[simp] theorem pcMux_push : pcMux (Instr.opcode (.push a)) t pc = pc + 2 := by simp [pcMux, Instr.opcode, setsPc, operandCount]
@[simp] theorem pcMux_pop : pcMux (Instr.opcode (.pop a)) t pc = pc + 2 := by simp [pcMux, Instr.opcode, setsPc, operandCount]
@[simp] theorem pcMux_call : pcMux (Instr.opcode (.call a)) t pc = t.toNat := by simp [pcMux, Instr.opcode, setsPc]
@[simp] theorem pcMux_ret : pcMux (Instr.opcode .ret) t pc = t.toNat := by simp [pcMux, Instr.opcode, setsPc]
@[simp] theorem pcMux_add : pcMux (Instr.opcode (.add a b)) t pc = pc + 3 := by simp [pcMux, Instr.opcode, setsPc, operandCount]
@[simp] theorem pcMux_mul : pcMux (Instr.opcode (.mul a b)) t pc = pc + 3 := by simp [pcMux, Instr.opcode, setsPc, operandCount]
@[simp] theorem pcMux_and : pcMux (Instr.opcode (.and a b)) t pc = pc + 3 := by simp [pcMux, Instr.opcode, setsPc, operandCount]
@[simp] theorem pcMux_cmp : pcMux (Instr.opcode (.cmp a b)) t pc = pc + 3 := by simp [pcMux, Instr.opcode, setsPc, operandCount]
end Mux

/-! ### The ALU (R170) -/

section Alu
variable (p q : Byte)
@[simp] theorem alu_add : alu .add p q = .ok (.value (BitVec.ofNat 8 ((p.toNat + q.toNat) % 256))) := rfl
@[simp] theorem alu_mul : alu .mul p q = .ok (.value (BitVec.ofNat 8 ((p.toNat * q.toNat) % 256))) := rfl
@[simp] theorem alu_and : alu .and p q = .ok (.value (p &&& q)) := rfl
@[simp] theorem alu_cmp : alu .cmp p q = .ok (.flags (compareFlags p q)) := rfl
end Alu

@[simp] theorem aluWrite_value (r : RegIdx) (s : State) (v : Byte) : aluWrite r s (.value v) = s.setX r v := rfl
@[simp] theorem aluWrite_flags (r : RegIdx) (s : State) (v : Byte) : aluWrite r s (.flags v) = s.setFl v := rfl

end Sys2Proof.Machine
end

