-- ==== Sys2Proof/Laws/Decode.lean ====
section
/-! SUPPORT. The decoder: the dispatch table's rows, what a decode can answer, and where it reads. -/

namespace Sys2Proof

theorem handlerOf_isSome_iff (op : Byte) : (handlerOf op).isSome = true ↔ op ∈ supportedOpcodes := by
  revert op; decide

/-- The handler of an instruction's opcode rebuilds the instruction from its operand bytes (R84). -/
theorem handlerOf_opcode (i : Instr) :
    ∃ h, handlerOf i.opcode = some h ∧
      h (i.operands.getD 0 noOperand) (i.operands.getD 1 noOperand) = i := by
  cases i <;> exact ⟨_, rfl, rfl⟩

/-- A handler, given any two bytes, yields an instruction with that opcode (R86). -/
theorem opcode_of_handlerOf {op : Byte} {h : Handler} (e : handlerOf op = some h) (a b : Byte) :
    (h a b).opcode = op := by
  unfold handlerOf at e
  split at e <;> first | (cases e; rfl) | cases e

/-- op[7:6] is the number of operand bytes of the instruction (R90). -/
theorem operandCount_opcode (i : Instr) : operandCount i.opcode = i.operands.length := by
  cases i <;> simp [operandCount, Instr.opcode, Instr.operands]

/-- A defined opcode has at most two operand bytes (R89). -/
theorem operandCount_opcode_le (i : Instr) : operandCount i.opcode ≤ 2 := by
  rw [operandCount_opcode]; cases i <;> simp [Instr.operands]

theorem encode_length (i : Instr) : (encode i).length = i.length := by
  simp [encode, Instr.length, operandCount_opcode]

/-- op[4] is 1 exactly for CALL and RET (R90). -/
theorem setsPc_opcode (i : Instr) : setsPc i.opcode = true ↔ (∃ a, i = .call a) ∨ i = .ret := by
  cases i <;> simp [Instr.opcode, setsPc]

/-- What a decoder answers once its opcode byte is read and has a handler (R112, R114). -/
theorem decodeFrom_of_opcode {ε : Type} {read : Nat → Except ε Byte} {unsupported : Byte → ε} {op : Byte} {h : Handler}
    (h0 : read 0 = .ok op) (hh : handlerOf op = some h) :
    decodeFrom read unsupported =
      match (if 1 ≤ operandCount op then read 1 else .ok noOperand) with
      | .error e => .error e
      | .ok a =>
        match (if operandCount op = 2 then read 2 else .ok noOperand) with
        | .error e => .error e
        | .ok b => .ok (h a b) := by
  simp only [decodeFrom, h0, hh] <;> rfl

/-- A decoder that reads an instruction's bytes yields that instruction (R111 to R114). -/
theorem decodeFrom_of_reads {ε : Type} {read : Nat → Except ε Byte} {unsupported : Byte → ε} (i : Instr)
    (h : ∀ (k : Nat) (hk : k < (encode i).length), read k = .ok (encode i)[k]) :
    decodeFrom read unsupported = .ok i := by
  obtain ⟨f, hf, hfi⟩ := handlerOf_opcode i
  have hn := operandCount_opcode i
  have h0 : read 0 = .ok i.opcode := h 0 (by simp [encode])
  have h1 : (if 1 ≤ operandCount i.opcode then read 1 else .ok noOperand) = .ok (i.operands.getD 0 noOperand) := by
    split
    · have hl : 0 < i.operands.length := by omega
      rw [h 1 (by simp [encode]; omega), List.getD_eq_getElem _ _ hl]
      simp [encode]
    · have hl : i.operands = [] := List.length_eq_zero_iff.1 (by omega)
      simp [hl]
  have h2 : (if operandCount i.opcode = 2 then read 2 else .ok noOperand) = .ok (i.operands.getD 1 noOperand) := by
    have hle := operandCount_opcode_le i
    split
    · have hl : 1 < i.operands.length := by omega
      rw [h 2 (by simp [encode]; omega), List.getD_eq_getElem _ _ hl]
      simp [encode]
    · have hl : i.operands.length ≤ 1 := by omega
      rw [List.getD_eq_default _ _ hl]
  rw [decodeFrom_of_opcode h0 hf, h1, h2]
  simp only [hfi]

/-- A decoder that yields an instruction has read exactly that instruction's bytes (R112, R114). -/
theorem reads_of_decodeFrom {ε : Type} {read : Nat → Except ε Byte} {unsupported : Byte → ε} {i : Instr}
    (h : decodeFrom read unsupported = .ok i) (k : Nat) (hk : k < (encode i).length) :
    read k = .ok (encode i)[k] := by
  rcases h0 : read 0 with e | op
  · simp [decodeFrom, h0] at h
  rcases hf : handlerOf op with _ | f
  · simp [decodeFrom, h0, hf] at h
  rw [decodeFrom_of_opcode h0 hf] at h
  split at h
  · cases h
  rename_i a ha
  split at h
  · cases h
  rename_i b hb
  injection h with h
  subst h
  unfold handlerOf at hf
  split at hf <;> cases hf <;> simp [operandCount] at ha hb <;>
    simp [encode, Instr.opcode, Instr.operands] at hk ⊢ <;>
    first
      | (subst hk; simpa using h0)
      | (have : k = 0 ∨ k = 1 := by omega
         rcases this with rfl | rfl <;> simp_all)
      | (have : k = 0 ∨ k = 1 ∨ k = 2 := by omega
         rcases this with rfl | rfl | rfl <;> simp_all)

end Sys2Proof
end

