-- ==== Sys2Proof/Laws/Exec.lean ====
section
/-! SUPPORT. One lemma per meaning: the state it answers on legal operands, over the updates of State, and the two shapes
any meaning can answer in. -/

namespace Sys2Proof.Machine

variable (s : State)

theorem execHlt_eq : execHlt s = .next ((s.setRun false).setPc (s.pc + 1)) := by simp [execHlt]

theorem execLdi_of_lt {a : Byte} (ha : a.toNat < 8) (i : Byte) :
    execLdi a i s = .next ((s.setX ⟨a.toNat, ha⟩ i).setPc (s.pc + 3)) := by
  simp [execLdi, withReg_of_lt ha]

theorem execPrn_of_lt {a : Byte} (ha : a.toNat < 8) :
    execPrn a s = .next ((s.output (s.x ⟨a.toNat, ha⟩)).setPc (s.pc + 2)) := by
  simp [execPrn, withReg_of_lt ha]

theorem execSt_of_lt {a b : Byte} (ha : a.toNat < 8) (hb : b.toNat < 8) :
    execSt a b s =
      .next ((s.setCell (s.x ⟨a.toNat, ha⟩).toNat (s.x ⟨b.toNat, hb⟩)).setPc (s.pc + 3)) := by
  simp [execSt, withRegs_of_lt ha hb]

theorem execPush_of_lt {a : Byte} (ha : a.toNat < 8) :
    execPush a s =
      .next (((s.setX sp (s.x sp - 1)).setCell (s.x sp - 1).toNat (s.x ⟨a.toNat, ha⟩)).setPc (s.pc + 2)) := by
  simp only [execPush, withReg_of_lt ha, stackPush_eq, except_map_ok, commit_ok, pcMux_push]

theorem execPop_of_lt {a : Byte} (ha : a.toNat < 8) :
    execPop a s =
      .next (((s.setX sp (s.x sp + 1)).setX ⟨a.toNat, ha⟩ (s.cell (s.x sp).toNat)).setPc (s.pc + 2)) := by
  simp only [execPop, withReg_of_lt ha, stackPop_eq, except_map_ok, commit_ok, pcMux_pop]

theorem execCall_of_lt {a : Byte} (ha : a.toNat < 8) (hpc : s.pc + 2 ≤ 255) :
    execCall a s =
      .next (((s.setX sp (s.x sp - 1)).setCell (s.x sp - 1).toNat (BitVec.ofNat 8 (s.pc + 2))).setPc
        ((s.setX sp (s.x sp - 1)).x ⟨a.toNat, ha⟩).toNat) := by
  have h : ¬ 255 < s.pc + 2 := by omega
  simp only [execCall, withReg_of_lt ha, if_neg h, stackPush_eq, except_map_ok, commit_ok, pcMux_call,
    State.setCell_x]

theorem execCall_of_gt {a : Byte} (ha : a.toNat < 8) (hpc : 255 < s.pc + 2) :
    execCall a s = raise (.returnAddress (s.pc + 2)) s := by
  simp only [execCall, withReg_of_lt ha, if_pos hpc, commit_error]

theorem execRet_eq :
    execRet s = .next ((s.setX sp (s.x sp + 1)).setPc (s.cell (s.x sp).toNat).toNat) := by
  simp only [execRet, stackPop_eq, commit_ok, pcMux_ret]

theorem execAdd_of_lt {a b : Byte} (ha : a.toNat < 8) (hb : b.toNat < 8) :
    execAdd a b s =
      .next ((s.setX ⟨a.toNat, ha⟩
        (BitVec.ofNat 8 (((s.x ⟨a.toNat, ha⟩).toNat + (s.x ⟨b.toNat, hb⟩).toNat) % 256))).setPc (s.pc + 3)) := by
  simp only [execAdd, aluStep, withRegs_of_lt ha hb, alu_add, except_map_ok, commit_ok, pcMux_add, aluWrite_value]

theorem execMul_of_lt {a b : Byte} (ha : a.toNat < 8) (hb : b.toNat < 8) :
    execMul a b s =
      .next ((s.setX ⟨a.toNat, ha⟩
        (BitVec.ofNat 8 (((s.x ⟨a.toNat, ha⟩).toNat * (s.x ⟨b.toNat, hb⟩).toNat) % 256))).setPc (s.pc + 3)) := by
  simp only [execMul, aluStep, withRegs_of_lt ha hb, alu_mul, except_map_ok, commit_ok, pcMux_mul, aluWrite_value]

theorem execAnd_of_lt {a b : Byte} (ha : a.toNat < 8) (hb : b.toNat < 8) :
    execAnd a b s =
      .next ((s.setX ⟨a.toNat, ha⟩ (s.x ⟨a.toNat, ha⟩ &&& s.x ⟨b.toNat, hb⟩)).setPc (s.pc + 3)) := by
  simp only [execAnd, aluStep, withRegs_of_lt ha hb, alu_and, except_map_ok, commit_ok, pcMux_and, aluWrite_value]

theorem execCmp_of_lt {a b : Byte} (ha : a.toNat < 8) (hb : b.toNat < 8) :
    execCmp a b s =
      .next ((s.setFl (compareFlags (s.x ⟨a.toNat, ha⟩) (s.x ⟨b.toNat, hb⟩))).setPc (s.pc + 3)) := by
  simp only [execCmp, aluStep, withRegs_of_lt ha hb, alu_cmp, except_map_ok, commit_ok, pcMux_cmp, aluWrite_flags]

/-- The exact flags of a comparison: one of the three one-bit values (R32, R174). -/
theorem compareFlags_cases (p q : Byte) :
    (p.toNat = q.toNat ∧ compareFlags p q = 0x01) ∨ (q.toNat < p.toNat ∧ compareFlags p q = 0x02) ∨
      (p.toNat < q.toNat ∧ compareFlags p q = 0x04) := by
  unfold compareFlags
  split
  · exact .inl ⟨‹_›, rfl⟩
  · split
    · exact .inr (.inl ⟨‹_›, rfl⟩)
    · exact .inr (.inr ⟨by omega, rfl⟩)

/-! ### Everything an execution can do -/

/-- The fault an instruction itself can raise in `s`: a register operand byte above 7 (R194), or CALL's return address
(R195). -/
def RaisesIn (i : Instr) (s : State) (c : FaultCause) : Prop :=
  (∃ b ∈ i.regOperands, 8 ≤ b.toNat ∧ c = .registerIndex b) ∨
    (∃ a, i = .call a ∧ 255 < s.pc + 2 ∧ c = .returnAddress (s.pc + 2))

/-- What holds of the state `t` after `i` has completed in `s`, component by component. -/
structure Completes (i : Instr) (s t : State) : Prop where
  fault : t.fault = s.fault
  run   : t.run = if i = .hlt then false else s.run
  fl    : (i.opcode ≠ 0xA7 ∧ t.fl = s.fl) ∨ (i.opcode = 0xA7 ∧ ∃ p q, t.fl = compareFlags p q)
  out   : (i.opcode ≠ 0x47 ∧ t.out = s.out) ∨
            (i.opcode = 0x47 ∧ ∃ (a : Byte) (ha : a.toNat < 8), i = .prn a ∧ t.out = s.out ++ [s.x ⟨a.toNat, ha⟩])
  mem   : t.mem = s.mem ∨
            (i.opcode ∈ ([0x84, 0x45, 0x50] : List Byte) ∧ ∃ (a v : Byte), t.mem = Memory.write s.mem a.toNat v)
  pc    : (setsPc i.opcode = false ∧ t.pc = s.pc + operandCount i.opcode + 1) ∨
            (setsPc i.opcode = true ∧ ∃ target : Byte, t.pc = target.toNat)

/-- The two inputs of the multiplexer (R116). -/
theorem pcMux_cases (op target : Byte) (pc : Nat) :
    (setsPc op = false ∧ pcMux op target pc = pc + operandCount op + 1) ∨
      (setsPc op = true ∧ ∃ t : Byte, pcMux op target pc = t.toNat) := by
  unfold pcMux
  cases setsPc op
  · exact .inl ⟨rfl, rfl⟩
  · exact .inr ⟨rfl, target, rfl⟩

/-- A completion, from the handler's state before the write of pc. -/
theorem Completes.of_commit {i : Instr} {s u : State} {target : Byte} (fault : u.fault = s.fault)
    (run : u.run = if i = .hlt then false else s.run)
    (fl : (i.opcode ≠ 0xA7 ∧ u.fl = s.fl) ∨ (i.opcode = 0xA7 ∧ ∃ p q, u.fl = compareFlags p q))
    (out : (i.opcode ≠ 0x47 ∧ u.out = s.out) ∨
      (i.opcode = 0x47 ∧ ∃ (a : Byte) (ha : a.toNat < 8), i = .prn a ∧ u.out = s.out ++ [s.x ⟨a.toNat, ha⟩]))
    (mem : u.mem = s.mem ∨
      (i.opcode ∈ ([0x84, 0x45, 0x50] : List Byte) ∧ ∃ (a v : Byte), u.mem = Memory.write s.mem a.toNat v)) :
    Completes i s (u.setPc (pcMux i.opcode target s.pc)) :=
  ⟨fault, run, fl, out, mem, pcMux_cases _ _ _⟩

/-- A completion of an instruction that touches only registers, and memory if it is one of the three that store. -/
theorem Completes.of_regs {i : Instr} {s u : State} {target : Byte} (hi : i ≠ .hlt) (h1 : i.opcode ≠ 0xA7)
    (h2 : i.opcode ≠ 0x47) (fault : u.fault = s.fault) (run : u.run = s.run) (fl : u.fl = s.fl) (out : u.out = s.out)
    (mem : u.mem = s.mem ∨
      (i.opcode ∈ ([0x84, 0x45, 0x50] : List Byte) ∧ ∃ (a v : Byte), u.mem = Memory.write s.mem a.toNat v)) :
    Completes i s (u.setPc (pcMux i.opcode target s.pc)) :=
  .of_commit fault (by rw [if_neg hi, run]) (.inl ⟨h1, fl⟩) (.inl ⟨h2, out⟩) mem

/-- An execution answers a next state always: it raised, changing the fault latch alone, or it completed. -/
theorem exec_raises_or_completes (i : Instr) (s : State) :
    (∃ c, RaisesIn i s c ∧ exec i s = .next (s.setFault c)) ∨ ∃ t, exec i s = .next t ∧ Completes i s t := by
  have one : ∀ {a : Byte} {k : RegIdx → Result}, a ∈ i.regOperands → exec i s = withReg a s k →
      (∀ ha : a.toNat < 8, (∃ c, RaisesIn i s c ∧ k ⟨a.toNat, ha⟩ = .next (s.setFault c)) ∨
        ∃ t, k ⟨a.toNat, ha⟩ = .next t ∧ Completes i s t) →
      (∃ c, RaisesIn i s c ∧ exec i s = .next (s.setFault c)) ∨ ∃ t, exec i s = .next t ∧ Completes i s t := by
    intro a k hm he hk
    rcases withReg_cases a s k with ⟨ha, h⟩ | ⟨ha, h⟩
    · rw [he, h]; exact hk ha
    · exact .inl ⟨_, .inl ⟨a, hm, ha, rfl⟩, by rw [he, h]; rfl⟩
  have two : ∀ {a b : Byte} {k : RegIdx → RegIdx → Result}, i.regOperands = [a, b] → exec i s = withRegs a b s k →
      (∀ (ha : a.toNat < 8) (hb : b.toNat < 8), ∃ t, k ⟨a.toNat, ha⟩ ⟨b.toNat, hb⟩ = .next t ∧ Completes i s t) →
      (∃ c, RaisesIn i s c ∧ exec i s = .next (s.setFault c)) ∨ ∃ t, exec i s = .next t ∧ Completes i s t := by
    intro a b k hm he hk
    rcases withRegs_cases a b s k with ⟨ha, hb, h⟩ | ⟨ha, h⟩ | ⟨_, hb, h⟩
    · rw [he, h]; exact .inr (hk ha hb)
    · exact .inl ⟨_, .inl ⟨a, by simp [hm], ha, rfl⟩, by rw [he, h]; rfl⟩
    · exact .inl ⟨_, .inl ⟨b, by simp [hm], hb, rfl⟩, by rw [he, h]; rfl⟩
  cases i with
  | hlt => exact .inr ⟨_, commitSequential_eq .hlt s (s.setRun false), .of_commit rfl rfl (.inl ⟨by decide, rfl⟩)
      (.inl ⟨by decide, rfl⟩) (.inl rfl)⟩
  | ldi a v =>
    refine one (a := a) (by simp [Instr.regOperands]) rfl fun ha => .inr ⟨_, commitSequential_eq _ _ _, ?_⟩
    exact .of_regs (by simp) (by simp [Instr.opcode]) (by simp [Instr.opcode]) rfl rfl rfl rfl
        (.inl rfl)
  | prn a =>
    refine one (a := a) (by simp [Instr.regOperands]) rfl fun ha => .inr ⟨_, commitSequential_eq _ _ _, ?_⟩
    exact .of_commit rfl rfl (.inl ⟨by simp [Instr.opcode], rfl⟩) (.inr ⟨rfl, a, ha, rfl, rfl⟩) (.inl rfl)
  | st a b =>
    refine two (a := a) (b := b) rfl rfl fun ha hb => ⟨_, by rw [memWrite_byte, except_map_ok, commit_ok], ?_⟩
    exact .of_regs (by simp) (by simp [Instr.opcode]) (by simp [Instr.opcode]) rfl rfl rfl rfl
        (.inr ⟨by simp [Instr.opcode], _, _, rfl⟩)
  | push a =>
    refine one (a := a) (by simp [Instr.regOperands]) rfl fun ha => .inr ⟨_, by rw [stackPush_eq, except_map_ok, commit_ok], ?_⟩
    exact .of_regs (by simp) (by simp [Instr.opcode]) (by simp [Instr.opcode]) rfl rfl rfl rfl
        (.inr ⟨by simp [Instr.opcode], _, _, rfl⟩)
  | pop a =>
    refine one (a := a) (by simp [Instr.regOperands]) rfl fun ha => .inr ⟨_, by rw [stackPop_eq, except_map_ok, commit_ok], ?_⟩
    exact .of_regs (by simp) (by simp [Instr.opcode]) (by simp [Instr.opcode]) rfl rfl rfl rfl
        (.inl rfl)
  | call a =>
    refine one (a := a) (by simp [Instr.regOperands]) rfl fun ha => ?_
    by_cases hpc : 255 < s.pc + 2
    · exact .inl ⟨_, .inr ⟨a, rfl, hpc, rfl⟩, by rw [if_pos hpc, commit_error]; rfl⟩
    · refine .inr ⟨_, by rw [if_neg hpc, stackPush_eq, except_map_ok, commit_ok], ?_⟩
      exact .of_regs (by simp) (by simp [Instr.opcode]) (by simp [Instr.opcode]) rfl rfl rfl rfl
        (.inr ⟨by simp [Instr.opcode], _, _, rfl⟩)
  | ret =>
    refine .inr ⟨_, by rw [exec, execRet, stackPop_eq, commit_ok], ?_⟩
    exact .of_regs (by simp) (by simp [Instr.opcode]) (by simp [Instr.opcode]) rfl rfl rfl rfl
        (.inl rfl)
  | add a b =>
    refine two (a := a) (b := b) rfl rfl fun ha hb => ⟨_, by rw [alu_add, except_map_ok, commit_ok], ?_⟩
    exact .of_regs (by simp) (by simp [Instr.opcode]) (by simp [Instr.opcode]) rfl rfl rfl rfl
        (.inl rfl)
  | mul a b =>
    refine two (a := a) (b := b) rfl rfl fun ha hb => ⟨_, by rw [alu_mul, except_map_ok, commit_ok], ?_⟩
    exact .of_regs (by simp) (by simp [Instr.opcode]) (by simp [Instr.opcode]) rfl rfl rfl rfl
        (.inl rfl)
  | and a b =>
    refine two (a := a) (b := b) rfl rfl fun ha hb => ⟨_, by rw [alu_and, except_map_ok, commit_ok], ?_⟩
    exact .of_regs (by simp) (by simp [Instr.opcode]) (by simp [Instr.opcode]) rfl rfl rfl rfl
        (.inl rfl)
  | cmp a b =>
    refine two (a := a) (b := b) rfl rfl fun ha hb => ⟨_, by rw [alu_cmp, except_map_ok, commit_ok], ?_⟩
    exact .of_commit rfl rfl (.inr ⟨rfl, _, _, rfl⟩) (.inl ⟨by simp [Instr.opcode], rfl⟩) (.inl rfl)

end Sys2Proof.Machine
end

