-- ==== Sys2Proof/Laws/PerInstr.lean ====
section
/-! SUPPORT. What holds of every instruction as syntax, one lemma per constructor. -/

/-- The opcode's own bits agree with the format: op[7:6] counts the operand bytes and op[4] is 1 exactly for CALL and RET
(R81, R82, R90). -/
def Sys2Proof.Laws.OpcodeBits.Statement (i : Sys2Proof.Instr) : Prop :=
  Sys2Proof.operandCount i.opcode = i.operands.length ∧
    (Sys2Proof.setsPc i.opcode = true ↔ i.opcode = 0x50 ∨ i.opcode = 0x11)

namespace Sys2Proof.Laws.OpcodeBits

theorem hlt : Statement .hlt := by constructor <;> decide
theorem ldi (a i : Byte) : Statement (.ldi a i) := by constructor <;> simp [operandCount, setsPc, Instr.opcode, Instr.operands]
theorem prn (a : Byte) : Statement (.prn a) := by constructor <;> simp [operandCount, setsPc, Instr.opcode, Instr.operands]
theorem st (a b : Byte) : Statement (.st a b) := by constructor <;> simp [operandCount, setsPc, Instr.opcode, Instr.operands]
theorem push (a : Byte) : Statement (.push a) := by constructor <;> simp [operandCount, setsPc, Instr.opcode, Instr.operands]
theorem pop (a : Byte) : Statement (.pop a) := by constructor <;> simp [operandCount, setsPc, Instr.opcode, Instr.operands]
theorem call (a : Byte) : Statement (.call a) := by constructor <;> simp [operandCount, setsPc, Instr.opcode, Instr.operands]
theorem ret : Statement .ret := by constructor <;> decide
theorem add (a b : Byte) : Statement (.add a b) := by constructor <;> simp [operandCount, setsPc, Instr.opcode, Instr.operands]
theorem mul (a b : Byte) : Statement (.mul a b) := by constructor <;> simp [operandCount, setsPc, Instr.opcode, Instr.operands]
theorem and (a b : Byte) : Statement (.and a b) := by constructor <;> simp [operandCount, setsPc, Instr.opcode, Instr.operands]
theorem cmp (a b : Byte) : Statement (.cmp a b) := by constructor <;> simp [operandCount, setsPc, Instr.opcode, Instr.operands]

end Sys2Proof.Laws.OpcodeBits
end

