-- ==== Sys2Proof/Laws/Step.lean ====
section
/-! SUPPORT. What a step can do, said once: when it is enabled, what it fetches, and how it ends. -/

namespace Sys2Proof.Machine

theorem step_of_enabled {s : State} (h : s.enabled = true) : step s = stepEnabled exec s := by
  obtain ⟨hr, hf⟩ := (State.enabled_iff s).1 h
  simp [step, hr, hf]

/-- A step that answers a next state was enabled (R110, R121). -/
theorem enabled_of_step {s t : State} (h : step s = .next t) : s.enabled = true := by
  unfold step at h
  split at h
  · cases h
  · split at h
    · simp_all [State.enabled_iff]
    · cases h

/-- A fetch yields the instruction whose bytes stand at pc (R111 to R114). -/
theorem fetch_of_bytesAt {s : State} {i : Instr} (h : BytesAt s s.pc (encode i)) : fetch s = .ok i :=
  decodeFrom_of_reads i fun k hk => by rw [memRead_of_le (h k hk).1, (h k hk).2]

/-- The bytes of the instruction a fetch yields stand at pc, all within memory. -/
theorem bytesAt_of_fetch {s : State} {i : Instr} (h : fetch s = .ok i) : BytesAt s s.pc (encode i) := by
  intro k hk
  have hr := reads_of_decodeFrom h k hk
  by_cases hle : s.pc + k ≤ 255
  · rw [memRead_of_le hle] at hr
    exact ⟨hle, by injection hr⟩
  · rw [memRead_of_gt (by omega)] at hr
    cases hr

theorem stepEnabled_of_fetch_ok {s : State} {i : Instr} (h : fetch s = .ok i) : stepEnabled exec s = exec i s := by
  simp [stepEnabled, h]

theorem stepEnabled_of_fetch_error {s : State} {c : FaultCause} (h : fetch s = .error c) :
    stepEnabled exec s = raise c s := by
  simp [stepEnabled, h]

/-- Everything a step that answers a next state can have done (R110): a fault raised by the fetch, or the execution of the
instruction fetched. -/
theorem step_cases {s t : State} (h : step s = .next t) :
    s.enabled = true ∧
      ((∃ c, fetch s = .error c ∧ t = s.setFault c) ∨ ∃ i, fetch s = .ok i ∧ exec i s = .next t) := by
  have he := enabled_of_step h
  refine ⟨he, ?_⟩
  rw [step_of_enabled he] at h
  rcases hf : fetch s with c | i
  · rw [stepEnabled_of_fetch_error hf] at h
    injection h with h
    exact .inl ⟨c, rfl, h.symm⟩
  · rw [stepEnabled_of_fetch_ok hf] at h
    exact .inr ⟨i, rfl, h⟩

/-- Every fault the first three stages of a step can raise (R111, R113, R114, R200 (1) to (4)). -/
theorem fetch_error_cases {s : State} {c : FaultCause} (h : fetch s = .error c) :
    (255 < s.pc ∧ c = .memoryIndex s.pc) ∨
      (s.pc ≤ 255 ∧ handlerOf (s.cell s.pc) = none ∧ c = .unsupportedOpcode (s.cell s.pc)) ∨
      (s.pc = 255 ∧ 1 ≤ operandCount (s.cell s.pc) ∧ c = .memoryIndex 256) ∨
      (s.pc = 254 ∧ operandCount (s.cell s.pc) = 2 ∧ c = .memoryIndex 256) := by
  by_cases hpc : 255 < s.pc
  · simp only [fetch, decodeFrom, Nat.add_zero, memRead_of_gt hpc] at h
    injection h with h
    exact .inl ⟨hpc, h.symm⟩
  have hle : s.pc ≤ 255 := by omega
  have h0 : (fun k => memRead (s.pc + k) s) 0 = .ok (s.cell s.pc) := memRead_of_le hle s
  rcases hf : handlerOf (s.cell s.pc) with _ | f
  · simp only [fetch, decodeFrom, h0, hf] at h
    injection h with h
    exact .inr (.inl ⟨hle, rfl, h.symm⟩)
  rw [fetch, decodeFrom_of_opcode h0 hf] at h
  by_cases h1 : 255 < s.pc + 1
  · have h255 : s.pc = 255 := by omega
    by_cases hn : 1 ≤ operandCount (s.cell s.pc)
    · rw [if_pos hn, memRead_of_gt h1] at h
      injection h with h
      exact .inr (.inr (.inl ⟨h255, hn, by rw [← h, h255]⟩))
    · rw [if_neg hn, if_neg (by omega)] at h
      cases h
  by_cases hn : operandCount (s.cell s.pc) = 2
  · by_cases h2 : 255 < s.pc + 2
    · have h254 : s.pc = 254 := by omega
      rw [if_pos (by omega), memRead_of_le (by omega), if_pos hn] at h
      simp only [memRead_of_gt h2] at h
      injection h with h
      exact .inr (.inr (.inr ⟨h254, hn, by rw [← h, h254]⟩))
    · rw [if_pos (by omega), memRead_of_le (by omega), if_pos hn] at h
      simp only [memRead_of_le (show s.pc + 2 ≤ 255 by omega)] at h
      cases h
  · simp only [if_neg hn, memRead_of_le (show s.pc + 1 ≤ 255 by omega)] at h
    split at h
    · rename_i he
      split at he <;> cases he
    · cases h

/-- The opcode byte of the instruction a fetch yields stands at pc. -/
theorem opcode_of_fetch {s : State} {i : Instr} (h : fetch s = .ok i) : s.pc ≤ 255 ∧ s.cell s.pc = i.opcode :=
  bytesAt_of_fetch h 0 (by simp [encode])

/-- Everything a step does when it answers a next state: a fault, raised by the fetch or by the instruction, that changes
the latch alone, or the completion of the instruction fetched. -/
theorem step_effects {s t : State} (h : step s = .next t) :
    (∃ c, t = s.setFault c ∧ (fetch s = .error c ∨ ∃ i, fetch s = .ok i ∧ RaisesIn i s c)) ∨
      ∃ i, fetch s = .ok i ∧ exec i s = .next t ∧ Completes i s t := by
  obtain ⟨_, ⟨c, hc, rfl⟩ | ⟨i, hi, hx⟩⟩ := step_cases h
  · exact .inl ⟨c, rfl, .inl hc⟩
  rcases exec_raises_or_completes i s with ⟨c, hr, hc⟩ | ⟨u, hu, hcomp⟩
  · rw [hx] at hc
    injection hc with hc
    exact .inl ⟨c, hc, .inr ⟨i, hi, hr⟩⟩
  · rw [hx] at hu
    injection hu with hu
    subst hu
    exact .inr ⟨i, hi, hx, hcomp⟩

/-- An enabled step answers a next state (R110). -/
theorem step_answers {s : State} (h : s.enabled = true) : ∃ t, step s = .next t := by
  rw [step_of_enabled h]
  rcases hf : fetch s with c | i
  · exact ⟨_, stepEnabled_of_fetch_error hf⟩
  · rw [stepEnabled_of_fetch_ok hf]
    rcases exec_raises_or_completes i s with ⟨c, _, hc⟩ | ⟨t, ht, _⟩
    · exact ⟨_, hc⟩
    · exact ⟨t, ht⟩

end Sys2Proof.Machine
end

