-- ==== Sys2Proof/Tests/Slice0.lean ====
section
/-! SUPPORT. The model's own tests. Expected values are those of spec/ (the section or rule is named), never the model's
own answer; the last part gives, for every statement with hypotheses, a state and operands that meet them. -/

namespace Sys2Proof.Tests

open Sys2Proof Sys2Proof.Machine

/-- The reset state with bytes placed at `pc`, and `pc` there. -/
def stateAt (pc : Nat) (bytes : List Byte) : State :=
  { State.reset with pc := pc, mem := Memory.place [] pc bytes }

/-- The next state of an answer, if it is one. -/
def nextOf : Result → Option State
  | .next t => some t
  | .fault _ => none
  | .refused _ => none

theorem exists_of_isSome {o : Result} (h : (nextOf o).isSome = true) : ∃ t, o = .next t := by
  cases o <;> simp [nextOf] at h ⊢

theorem exists_of_any {o : Result} {p : State → Bool} (h : (nextOf o).any p = true) : ∃ t, o = .next t ∧ p t = true := by
  cases o <;> simp_all [nextOf]

/-! ### WellFormed refuses an ill-formed term of each check (R233) -/

theorem test_wf_refuses_first_operand :
    ([.ldi 8 0, .prn 8, .st 8 0, .push 255, .pop 8, .call 8, .add 8 0, .mul 8 0, .and 8 0, .cmp 8 0] : List Instr).all
      (fun i => !i.wellFormed) = true := by decide

theorem test_wf_refuses_second_operand :
    ([.st 0 8, .add 0 8, .mul 7 255, .and 0 8, .cmp 0 8] : List Instr).all (fun i => !i.wellFormed) = true := by decide

theorem test_wf_accepts :
    ([.hlt, .ldi 7 255, .prn 7, .st 7 7, .push 7, .pop 7, .call 7, .ret, .add 0 7, .mul 7 0, .and 7 7, .cmp 0 0] :
      List Instr).all Instr.wellFormed = true := by decide

/-! ### Decoding: words written out from the binary column of R86 -/

theorem test_decode_hlt : decode [0b00000001] = .ok (.hlt, []) := by rfl
theorem test_decode_ldi : decode [0b10000010, 0x00, 0x08] = .ok (.ldi 0 8, []) := by rfl
theorem test_decode_prn : decode [0b01000111, 0x03] = .ok (.prn 3, []) := by rfl
theorem test_decode_st : decode [0b10000100, 0x02, 0x00] = .ok (.st 2 0, []) := by rfl
theorem test_decode_push : decode [0b01000101, 0x07] = .ok (.push 7, []) := by rfl
theorem test_decode_pop : decode [0b01000110, 0x01, 0x01] = .ok (.pop 1, [0x01]) := by rfl
theorem test_decode_call : decode [0b01010000, 0x01] = .ok (.call 1, []) := by rfl
theorem test_decode_ret : decode [0b00010001] = .ok (.ret, []) := by rfl
theorem test_decode_add : decode [0b10100000, 0x00, 0x01] = .ok (.add 0 1, []) := by rfl
theorem test_decode_mul : decode [0b10100010, 0x0A, 0x0B] = .ok (.mul 10 11, []) := by rfl
theorem test_decode_and : decode [0b10101000, 0x02, 0x03] = .ok (.and 2 3, []) := by rfl
theorem test_decode_cmp : decode [0b10100111, 0x00, 0x09] = .ok (.cmp 0 9, []) := by rfl

/-- spec/95 §2.1: the near misses of the table have no handler. -/
theorem test_decode_near_misses :
    ([0x00, 0x02, 0x10, 0x21, 0x44, 0x48, 0x51, 0x54, 0x80, 0x83, 0xA1, 0xA9, 0xAB, 0xC0, 0xFF] : List Byte).all
      (fun op => (handlerOf op).isNone) = true := by decide

theorem test_decode_short : decode [0xA0, 0x00] = .error (.missingByte 2) := by rfl

/-- A table word: the first byte is bits 7:0, and operand bits the table gives no bits to are 0. -/
theorem test_table_word : decodeTableWord 24 0x080082 = some (.ldi 0 8) ∧ decodeTableWord 8 0x47 = some (.prn 0) := by
  constructor <;> rfl

theorem test_fetch_word_runs :
    (nextOf (step (State.reset.withFetchWord 24 0x080082))).any (fun t => t.x 0 == 8 && t.pc == 3) = true := by decide

/-! ### One step per instruction, with the examples and vectors of the spec -/

/-- spec/95 §2.2: HLT at 0xFF leaves pc = 256 and halts normally. -/
theorem test_hlt_at_top :
    (nextOf (step (stateAt 255 [0x01]))).any (fun t => t.pc == 256 && !t.run && t.fault.isNone) = true := by decide

/-- spec/95 §2.3: PRN R7 outputs 244. -/
theorem test_prn_sp : (nextOf (step (stateAt 0 [0x47, 0x07]))).any (fun t => t.out == [244] && t.pc == 2) = true := by
  decide

/-- spec/95 §2.3: the index byte is not masked. -/
theorem test_prn_bad_register :
    (nextOf (step (stateAt 0 [0x47, 0xFF]))).any
      (fun t => t.fault == some (.registerIndex 255) && t.out == [] && t.pc == 0 && t.run) = true := by decide

/-- spec/95 §2.4: LDI may set the stack pointer. -/
theorem test_ldi_sp : (nextOf (step (stateAt 0 [0x82, 0x07, 0xFF]))).any (fun t => t.x 7 == 0xFF) = true := by decide

/-- spec/95 §2.2: LDI at 0xFE faults on the second operand fetch. -/
theorem test_ldi_at_top :
    (nextOf (step (stateAt 254 [0x82, 0x00]))).any (fun t => t.fault == some (.memoryIndex 256) && t.pc == 254) = true := by
  decide

/-- R141's example, with the registers set. -/
theorem test_st_example :
    (nextOf (step (((stateAt 0 [0x84, 0x02, 0x00]).setX 2 0x80).setX 0 0x2C))).any
      (fun t => t.cell 0x80 == 0x2C && t.pc == 3) = true := by decide

/-- spec/95 §2.4: a is checked first. -/
theorem test_st_checks_a_first :
    (nextOf (step (stateAt 0 [0x84, 0x09, 0x08]))).any (fun t => t.fault == some (.registerIndex 9)) = true := by decide

/-- spec/95 §2.5: PUSH R7 pushes the value before the decrement. -/
theorem test_push_sp :
    (nextOf (step (stateAt 0 [0x45, 0x07]))).any (fun t => t.cell 0xF3 == 0xF4 && t.x 7 == 0xF3 && t.pc == 2) = true := by
  decide

/-- spec/95 §2.5: a push with x7 = 0 wraps to cell 0xFF. -/
theorem test_push_wraps :
    (nextOf (step (((stateAt 0 [0x45, 0x00]).setX 7 0).setX 0 0xAB))).any
      (fun t => t.cell 0xFF == 0xAB && t.x 7 == 0xFF) = true := by decide

/-- R153's example. -/
theorem test_pop_example :
    (nextOf (step (((stateAt 0 [0x46, 0x00]).setX 7 0xF2).setCell 0xF2 0x64))).any
      (fun t => t.x 0 == 0x64 && t.x 7 == 0xF3 && t.cell 0xF2 == 0x64) = true := by decide

/-- spec/95 §2.5: POP R7 leaves the popped byte. -/
theorem test_pop_sp :
    (nextOf (step ((stateAt 0 [0x46, 0x07]).setCell 0xF4 0x33))).any (fun t => t.x 7 == 0x33) = true := by decide

/-- R154's example. -/
theorem test_call_example :
    (nextOf (step ((stateAt 6 [0x50, 0x01]).setX 1 0x0B))).any
      (fun t => t.cell 0xF3 == 0x08 && t.x 7 == 0xF3 && t.pc == 0x0B) = true := by decide

/-- spec/95 §2.5 and §2.2: CALL R7 jumps to the decremented stack pointer; CALL at 0xFE faults and pushes nothing. -/
theorem test_call_edges :
    (nextOf (step (stateAt 0 [0x50, 0x07]))).any (fun t => t.pc == 0xF3 && t.cell 0xF3 == 0x02) = true ∧
    (nextOf (step (stateAt 254 [0x50, 0x00]))).any
      (fun t => t.fault == some (.returnAddress 256) && t.x 7 == 0xF4 && t.cell 0xF3 == 0 && t.pc == 254) = true := by
  decide

/-- R155's example. -/
theorem test_ret_example :
    (nextOf (step (((stateAt 0 [0x11]).setX 7 0xF3).setCell 0xF3 0x08))).any
      (fun t => t.pc == 0x08 && t.x 7 == 0xF4) = true := by decide

/-- spec/95 S3: 0xFF + 0xFF wraps to 254, and §2.6: fl stays as it was. -/
theorem test_add_wraps :
    (nextOf (step (((stateAt 0 [0xA0, 0x00, 0x00]).setX 0 0xFF).setFl 0x04))).any
      (fun t => t.x 0 == 254 && t.fl == 0x04) = true := by decide

/-- spec/95 §2.6: 200 * 100 gives 32. -/
theorem test_mul_wraps :
    (nextOf (step (((stateAt 0 [0xA2, 0x00, 0x01]).setX 0 200).setX 1 100))).any
      (fun t => t.x 0 == 32 && t.x 1 == 100) = true := by decide

/-- R173's example. -/
theorem test_and_example :
    (nextOf (step (((stateAt 0 [0xA8, 0x02, 0x03]).setX 2 0xF0).setX 3 0x3C))).any (fun t => t.x 2 == 0x30) = true := by
  decide

/-- spec/95 §2.6: the comparison is unsigned (128 against 127). -/
theorem test_cmp_unsigned :
    (nextOf (step (((stateAt 0 [0xA7, 0x00, 0x01]).setX 0 128).setX 1 127))).any
      (fun t => t.fl == 0x02 && t.x 0 == 128) = true := by decide

/-- spec/95 §2.6: all of fl is overwritten. -/
theorem test_cmp_overwrites :
    (nextOf (step ((stateAt 0 [0xA7, 0x00, 0x01]).setFl 0xFF))).any (fun t => t.fl == 0x01) = true := by decide

/-- spec/95 §2.7: an unsupported opcode faults at pc with run = 1, and no step follows. -/
theorem test_unsupported_is_terminal :
    (nextOf (step (stateAt 0 [0x00]))).any
      (fun t => t.fault == some (.unsupportedOpcode 0) && t.pc == 0 && t.run && (nextOf (step t)).isNone) = true := by
  decide

/-! ### Witnesses: what meets the hypotheses of the statements

An operand byte at the boundary of each side of the register check, and a state at the boundary of each operand fetch. -/

theorem witness_register_check : (7 : Byte).toNat < 8 ∧ (0 : Byte).toNat < 8 ∧ 8 ≤ (8 : Byte).toNat ∧ 8 ≤ (255 : Byte).toNat := by
  decide

/-- A state that meets the hypotheses of `OperandFetchFaults op n` at `pc`. -/
def fetchFaultAt (op : Byte) (n pc : Nat) : Bool :=
  let s := stateAt pc [op]
  s.enabled && decide (s.pc ≤ 255) && decide (s.cell s.pc = op) && decide (255 < s.pc + n)

theorem witness_PrnOutputsRegister : fetchFaultAt 0x47 1 255 = true := by decide
theorem witness_LdiWritesImmediate : fetchFaultAt 0x82 2 254 = true ∧ fetchFaultAt 0x82 2 255 = true := by decide
theorem witness_StStoresRegisterIndirect : fetchFaultAt 0x84 2 254 = true ∧ fetchFaultAt 0x84 2 255 = true := by decide
theorem witness_PushWritesBelowStackPointer : fetchFaultAt 0x45 1 255 = true := by decide
theorem witness_PopReadsAtStackPointer : fetchFaultAt 0x46 1 255 = true ∧ (6 : Byte).toNat ≠ 7 := by decide
theorem witness_CallPushesReturnAddress :
    fetchFaultAt 0x50 1 255 = true ∧ (stateAt 253 []).pc + 2 ≤ 255 ∧ 255 < (stateAt 254 []).pc + 2 := by decide
theorem witness_AddIsSumModulo256 : fetchFaultAt 0xA0 2 254 = true ∧ fetchFaultAt 0xA0 2 255 = true := by decide
theorem witness_MulIsProductModulo256 : fetchFaultAt 0xA2 2 254 = true ∧ fetchFaultAt 0xA2 2 255 = true := by decide
theorem witness_AndIsBitwise : fetchFaultAt 0xA8 2 254 = true ∧ fetchFaultAt 0xA8 2 255 = true := by decide

/-- Equal, greater and less, at the ends of the range. -/
theorem witness_CmpWritesComparison :
    fetchFaultAt 0xA7 2 254 = true ∧ fetchFaultAt 0xA7 2 255 = true ∧
    (let s := ((stateAt 0 []).setX 0 255).setX 1 0
     (s.x 0).toNat = (s.x 0).toNat ∧ (s.x 1).toNat < (s.x 0).toNat) := by decide

theorem witness_AluIsPureFunction :
    (255 : Byte).toNat = (255 : Byte).toNat ∧ (0 : Byte).toNat < (255 : Byte).toNat ∧ (7 : Byte).toNat < 8 := by decide

theorem witness_FlagLayoutIsLGE : ∃ t, exec (.cmp 0 7) (stateAt 0 []) = .next t := exists_of_isSome (by decide)

theorem witness_FlagsWrittenOnlyByCmp :
    (∃ t, step (stateAt 0 [0x01]) = .next t ∧ decide ((stateAt 0 [0x01]).cell 0 ≠ 0xA7) = true) ∧
    (∃ t, step (stateAt 0 [0xA7, 0, 7]) = .next t ∧ (t.fault.isNone && decide ((stateAt 0 [0xA7, 0, 7]).cell 0 = 0xA7)) = true) ∧
    ∃ t, step ((stateAt 0 [0xA7, 0, 7]).setFl 0xFF) = .next t :=
  ⟨exists_of_any (by decide), exists_of_any (by decide), exists_of_isSome (by decide)⟩

theorem launch_next (bytes : List Byte) (h : bytes.length ≤ 256) :
    launch Config.resetParams bytes = .next { resetWith Config.resetParams with
      mem := Memory.place (resetWith Config.resetParams).mem 0 bytes } := by
  rw [launch, load, if_pos h]; rfl

/-- The state after reset and the load of `bytes`. -/
def launched (bytes : List Byte) : State :=
  { resetWith Config.resetParams with mem := Memory.place (resetWith Config.resetParams).mem 0 bytes }

theorem launched_step_hlt : (nextOf (step (launched [0x01]))).any
    (fun t => t.fault.isNone && decide ((launched [0x01]).cell 0 ≠ 0xA7)) = true := by decide +kernel

theorem launched_step_cmp : (nextOf (step (launched [0xA7, 0, 7]))).any
    (fun t => t.fault.isNone && decide ((launched [0xA7, 0, 7]).cell 0 = 0xA7)) = true := by decide +kernel

/-- A run of one step with no CMP in it, and one with a CMP. -/
theorem witness_FlagValuesAlongRun :
    (∃ (s₀ t : State), launch Config.resetParams [0x01] = .next s₀ ∧ Steps 1 s₀ t ∧
      ∀ (j : Nat) (u v : State), j < 1 → Steps j s₀ u → step u = .next v → ¬ (u.cell u.pc = 0xA7 ∧ v.fault = none)) ∧
    ∃ (s₀ t : State), launch Config.resetParams [0xA7, 0, 7] = .next s₀ ∧ Steps 1 s₀ t ∧
      ∃ (j : Nat) (u v : State), j < 1 ∧ Steps j s₀ u ∧ step u = .next v ∧ u.cell u.pc = 0xA7 ∧ v.fault = none := by
  obtain ⟨t, ht, hp⟩ := exists_of_any launched_step_hlt
  obtain ⟨t', ht', hp'⟩ := exists_of_any launched_step_cmp
  simp only [Bool.and_eq_true, decide_eq_true_eq, Option.isNone_iff_eq_none] at hp hp'
  refine ⟨⟨_, t, launch_next _ (by decide), ⟨t, ht, rfl⟩, ?_⟩,
    _, t', launch_next _ (by decide), ⟨t', ht', rfl⟩, 0, _, t', by decide, rfl, ht', hp'.2, hp'.1⟩
  intro j u v hj hu _ hc
  obtain rfl : j = 0 := by omega
  cases hu
  exact hp.2 hc.1

theorem witness_OtherOpcodesUnsupported :
    operandCount 0xFF = 3 ∧
    (let s := stateAt 255 [0xFF]
     s.enabled = true ∧ s.pc ≤ 255 ∧ s.cell s.pc ∉ supportedOpcodes) := by decide

theorem witness_PlacedWordRuns :
    (stateAt 253 []).enabled = true ∧ (stateAt 253 []).pc ≤ 253 ∧ decodeTableWord 24 0x080082 = some (.ldi 0 8) := by
  refine ⟨by decide, by decide, rfl⟩

theorem bytesAt_of_stateAt (pc : Nat) (bytes : List Byte) (h : pc + bytes.length ≤ 256) :
    BytesAt (stateAt pc bytes) pc bytes := by
  intro k hk
  refine ⟨by omega, ?_⟩
  have hr : pc ≤ pc + k ∧ pc + k ≤ 255 ∧ pc + k - pc < bytes.length := by omega
  show Memory.read (Memory.place [] pc bytes) (pc + k) = _
  rw [Memory.read_place, dif_pos hr]
  simp

/-- At the last address a three-byte instruction can stand. -/
theorem witness_StepRunsDecodedInstruction :
    (stateAt 253 (encode (.add 0 7))).enabled = true ∧
    BytesAt (stateAt 253 (encode (.add 0 7))) 253 (encode (.add 0 7)) :=
  ⟨by decide, bytesAt_of_stateAt _ _ (by decide)⟩

theorem witness_StepEndsInOneOfThreeWays : ∃ t, step (stateAt 255 [0x01]) = .next t := exists_of_isSome (by decide)

theorem witness_NoStepWhenHaltedOrFaulted :
    ((stateAt 0 []).setRun false).run = false ∧ ((stateAt 0 []).setFault (.memoryIndex 256)).fault ≠ none := by decide

theorem witness_FaultsArePrecise : ∃ t, step (stateAt 0 [0x00]) = .next t ∧ decide (t.fault ≠ none) = true :=
  exists_of_any (by decide)

theorem witness_FaultsAreTerminal :
    ((stateAt 0 []).setFault (.registerIndex 8)).fault ≠ none ∧
    ∃ u, load [0x01] ((stateAt 0 []).setFault (.registerIndex 8)) = .next u :=
  ⟨by decide, exists_of_isSome (by decide)⟩

/-- One state per clause, each at the boundary of its range. -/
theorem witness_FaultPriorityIsStepOrder :
    ((stateAt 256 []).enabled = true ∧ 255 < (stateAt 256 []).pc) ∧
    ((stateAt 255 [0xC0]).pc ≤ 255 ∧ (stateAt 255 [0xC0]).cell 255 ∉ supportedOpcodes) ∧
    ((stateAt 255 [0x47]).cell 255 ∈ supportedOpcodes ∧ 1 ≤ operandCount ((stateAt 255 [0x47]).cell 255)) ∧
    ((stateAt 254 [0xA0, 0]).cell 254 ∈ supportedOpcodes ∧ operandCount ((stateAt 254 [0xA0, 0]).cell 254) = 2) ∧
    (BytesAt (stateAt 253 (encode (.ldi 8 0))) 253 (encode (.ldi 8 0)) ∧ (Instr.ldi 8 0).regOperands = [8]) ∧
    (BytesAt (stateAt 253 (encode (.add 7 8))) 253 (encode (.add 7 8)) ∧ (Instr.add 7 8).regOperands = [7, 8]) ∧
    BytesAt (stateAt 254 (encode (.call 7))) 254 (encode (.call 7)) := by
  refine ⟨by decide, by decide, by decide, by decide, ⟨bytesAt_of_stateAt _ _ (by decide), rfl⟩,
    ⟨bytesAt_of_stateAt _ _ (by decide), rfl⟩, bytesAt_of_stateAt _ _ (by decide)⟩

/-- A sequential advance to 256, a CALL and a RET. -/
theorem witness_ProgramCounterMultiplexer :
    (∃ t, step (stateAt 255 [0x01]) = .next t ∧
      (t.fault.isNone && decide (setsPc ((stateAt 255 [0x01]).cell 255) = false)) = true) ∧
    (∃ t, step (stateAt 253 [0x50, 7]) = .next t ∧ (t.fault.isNone && decide ((stateAt 253 [0x50, 7]).cell 253 = 0x50)) = true) ∧
    ∃ t, step (stateAt 0 [0x11]) = .next t ∧ (t.fault.isNone && decide ((stateAt 0 [0x11]).cell 0 = 0x11)) = true :=
  ⟨exists_of_any (by decide), exists_of_any (by decide), exists_of_any (by decide)⟩

theorem stateAt_inv (pc : Nat) (h : pc ≤ 256) (bytes : List Byte) : (stateAt pc bytes).Inv :=
  ⟨Memory.wf_place rfl _ _, h, fun _ => rfl⟩

/-- The three places a memory-index fault can occur. -/
theorem witness_MemoryFaultsRecord256 :
    ((stateAt 256 []).Inv ∧ ∃ t, step (stateAt 256 []) = .next t ∧ decide (t.fault = some (.memoryIndex 256)) = true) ∧
    ((stateAt 255 [0x47]).Inv ∧ ∃ t, step (stateAt 255 [0x47]) = .next t ∧ decide (t.fault = some (.memoryIndex 256)) = true) ∧
    (stateAt 254 [0xA0]).Inv ∧ ∃ t, step (stateAt 254 [0xA0]) = .next t ∧ decide (t.fault = some (.memoryIndex 256)) = true :=
  ⟨⟨stateAt_inv _ (by decide) _, exists_of_any (by decide)⟩, ⟨stateAt_inv _ (by decide) _, exists_of_any (by decide)⟩,
    stateAt_inv _ (by decide) _, exists_of_any (by decide)⟩

theorem witness_ReturnAddressFaultOnlyAt254 :
    (stateAt 254 [0x50, 0]).Inv ∧
    ∃ t, step (stateAt 254 [0x50, 0]) = .next t ∧ decide (t.fault = some (.returnAddress 256)) = true :=
  ⟨stateAt_inv _ (by decide) _, exists_of_any (by decide)⟩

theorem witness_RegisterFaultRecordsOperandByte :
    ∃ t, step (stateAt 0 [0xA0, 7, 8]) = .next t ∧ decide (t.fault = some (.registerIndex 8)) = true :=
  exists_of_any (by decide)

theorem witness_AluFaultUnreachable : ∃ t, step (stateAt 0 [0xA0, 0, 7]) = .next t := exists_of_isSome (by decide)

theorem witness_RunClearedOnlyByHlt :
    (∃ t, load [0x01] State.reset = .next t) ∧ ∃ t, step (stateAt 255 [0x01]) = .next t ∧ (!t.run) = true :=
  ⟨exists_of_isSome (by decide), exists_of_any (by decide)⟩

theorem witness_MemReadIsBoundsChecked : 255 < 256 ∧ 255 ≤ 255 := by decide
theorem witness_MemWriteChangesOneCell : 255 < 256 ∧ 255 ≤ 255 := by decide

theorem witness_CanonicalMemoryIsUnique :
    Memory.wf [(0, 1), (255, 2)] = true ∧ ∀ a ≤ 255, Memory.read [(0, 1), (255, 2)] a = Memory.read [(0, 1), (255, 2)] a :=
  ⟨by decide, fun _ _ => rfl⟩

theorem witness_MemoryWrittenOnlyAtStoreAddress :
    (∃ t, step (stateAt 0 [0xA0, 0, 7]) = .next t) ∧
    (∃ t, step (stateAt 0 [0x84, 8, 0]) = .next t ∧ decide (t.fault ≠ none) = true) ∧
    (∃ t, step (stateAt 0 (encode (.push 7))) = .next t) ∧
    BytesAt (stateAt 0 (encode (.push 7))) 0 (encode (.push 7)) ∧
    storeAddress (.push 7) (stateAt 0 (encode (.push 7))) ≠ some 0xF4 :=
  ⟨exists_of_isSome (by decide), exists_of_any (by decide), exists_of_isSome (by decide),
    bytesAt_of_stateAt _ _ (by decide), by decide⟩

/-- `stateAt` with a register set: the bytes still stand there. -/
theorem bytesAt_setX {s : State} {a : Nat} {bs : List Byte} (h : BytesAt s a bs) (r : RegIdx) (v : Byte) :
    BytesAt (s.setX r v) a bs := h

/-- ST at 252 storing HLT's opcode at 255, the last address the next instruction can have. -/
theorem witness_HltStoredOverNextOpcodeHalts :
    let s := ((stateAt 252 (encode (.st 0 1))).setX 0 255).setX 1 0x01
    s.enabled = true ∧ BytesAt s s.pc (encode (.st 0 1)) ∧ (s.x 0).toNat = s.pc + 3 ∧ s.x 1 = 0x01 :=
  ⟨by decide, bytesAt_setX (bytesAt_setX (bytesAt_of_stateAt _ _ (by decide)) _ _) _ _, by decide, by decide⟩

/-- PUSH R7; POP R7 at the top of memory, and PUSH, POP across the wrap of the stack pointer. -/
theorem witness_PushThenPopRestoresRegisters :
    (let s := stateAt 252 (encode (.push 7) ++ encode (.pop 7))
     s.enabled = true ∧ BytesAt s s.pc (encode (.push 7) ++ encode (.pop 7)) ∧
       (s.x sp - 1).toNat ≠ s.pc + 2 ∧ (s.x sp - 1).toNat ≠ s.pc + 3) ∧
    (let s := (stateAt 0 (encode (.push 0) ++ encode (.pop 0))).setX sp 0
     s.enabled = true ∧ BytesAt s s.pc (encode (.push 0) ++ encode (.pop 0)) ∧
       (s.x sp - 1).toNat ≠ s.pc + 2 ∧ (s.x sp - 1).toNat ≠ s.pc + 3) :=
  ⟨⟨by decide, bytesAt_of_stateAt _ _ (by decide), by decide, by decide⟩,
    by decide, bytesAt_setX (bytesAt_of_stateAt _ _ (by decide)) _ _, by decide, by decide⟩

/-- CALL at 253, the highest that executes, to a RET at address 0. -/
theorem witness_CallThenRetReturns :
    let s := (stateAt 253 (encode (.call 0))).setCell 0 0x11
    (7 : Byte).toNat < 8 ∧ s.enabled = true ∧ BytesAt s s.pc (encode (.call 0)) ∧ s.pc + 2 ≤ 255 ∧
      ∃ t, step s = .next t ∧ decide (t.cell t.pc = 0x11) = true := by
  refine ⟨by decide, by decide, ?_, by decide, exists_of_any (by decide)⟩
  intro k hk
  have h := bytesAt_of_stateAt 253 (encode (.call 0)) (by decide) k hk
  refine ⟨h.1, ?_⟩
  rw [State.setCell_cell, if_neg (by simp [State.setCell, stateAt])]
  exact h.2

theorem witness_OutputInProgramOrder :
    (∃ t, step (stateAt 0 [0x01]) = .next t ∧ decide ((stateAt 0 [0x01]).cell 0 ≠ 0x47) = true) ∧
    (∃ t, step (stateAt 0 [0x47, 8]) = .next t ∧ decide (t.fault ≠ none) = true) ∧
    (∃ t, step (stateAt 254 [0x47, 7]) = .next t ∧ (t.fault.isNone && decide ((stateAt 254 [0x47, 7]).cell 254 = 0x47)) = true) ∧
    ((stateAt 0 []).setRun false).run = false :=
  ⟨exists_of_any (by decide), exists_of_any (by decide), exists_of_any (by decide), rfl⟩

theorem witness_LoadWritesFromAddressZero :
    (List.replicate 256 (0x01 : Byte)).length ≤ 256 ∧ 256 < (List.replicate 257 (0x01 : Byte)).length := by
  rw [List.length_replicate, List.length_replicate]; decide

theorem witness_run :
    (stateAt 0 [0x01]).enabled = true ∧ RunReturns (stateAt 0 [0x01]) (runSteps 1 (stateAt 0 [0x01])) :=
  ⟨by decide, by decide, 1, rfl⟩

theorem witness_RunEndsByHaltOrFault :
    ∃ t, (stateAt 0 [0x01]).enabled = true ∧ RunReturns (stateAt 0 [0x01]) t := ⟨_, witness_run⟩

/-- The same end reached with different numbers of rounds. -/
theorem witness_RunResultIsUnique :
    RunReturns (stateAt 0 [0x01]) (runSteps 1 (stateAt 0 [0x01])) ∧
    RunReturns (stateAt 0 [0x01]) (runSteps 5 (stateAt 0 [0x01])) :=
  ⟨witness_run.2, by decide, 5, rfl⟩

theorem witness_DebugViewShowsState : 2 < 3 ∧ (stateAt 253 []).pc + 2 ≤ 255 := by decide

theorem witness_StepKeepsInvariant :
    (stateAt 253 [0x50, 7]).Inv ∧ ∃ t, step (stateAt 253 [0x50, 7]) = .next t :=
  ⟨stateAt_inv _ (by decide) _, exists_of_isSome (by decide)⟩

theorem witness_ResetAndLoadMeetInvariant :
    (stateAt 256 []).Inv ∧ ∃ t, load [0x01] (stateAt 256 []) = .next t :=
  ⟨stateAt_inv _ (by decide) _, exists_of_isSome (by decide)⟩

end Sys2Proof.Tests
end

section
/-! The flags register: the layout CMP writes (R29), that nothing else writes it (R30), and that nothing reads it (R31). -/

namespace Sys2Proof.Machine

/-! ### The bits of a comparison (R29, R174) -/

theorem compareFlags_E_iff (p q : Byte) : (compareFlags p q).getLsbD 0 = true ↔ p.toNat = q.toNat := by
  rcases compareFlags_cases p q with ⟨h, e⟩ | ⟨h, e⟩ | ⟨h, e⟩ <;> simp [e] <;> omega

theorem compareFlags_G_iff (p q : Byte) : (compareFlags p q).getLsbD 1 = true ↔ q.toNat < p.toNat := by
  rcases compareFlags_cases p q with ⟨h, e⟩ | ⟨h, e⟩ | ⟨h, e⟩ <;> simp [e] <;> omega

theorem compareFlags_L_iff (p q : Byte) : (compareFlags p q).getLsbD 2 = true ↔ p.toNat < q.toNat := by
  rcases compareFlags_cases p q with ⟨h, e⟩ | ⟨h, e⟩ | ⟨h, e⟩ <;> simp [e] <;> omega

theorem compareFlags_eq_one_two_or_four (p q : Byte) :
    compareFlags p q = 0x01 ∨ compareFlags p q = 0x02 ∨ compareFlags p q = 0x04 :=
  (compareFlags_cases p q).imp And.right (Or.imp And.right And.right)

theorem compareFlags_getLsbD_of_ge (p q : Byte) {k : Nat} (hk : 3 ≤ k) : (compareFlags p q).getLsbD k = false := by
  have h8 : (compareFlags p q).toNat < 2 ^ 3 := by
    rcases compareFlags_eq_one_two_or_four p q with e | e | e <;> rw [e] <;> decide
  exact Nat.testBit_lt_two_pow (h8.trans_le (Nat.pow_le_pow_right (by decide) hk))

/-- Settles O14: on legal operands CMP leaves `compareFlags` in fl, whose bits the lemmas above read off. -/
theorem flagLayoutIsLGE : Obligations.FlagLayoutIsLGE := by
  intro a b s t ha hb h
  have e : execCmp a b s = .next t := h
  rw [execCmp_of_lt s ha hb] at e
  obtain rfl := Host.Outcome.next.inj e
  exact ⟨compareFlags_E_iff _ _, compareFlags_G_iff _ _, compareFlags_L_iff _ _,
    fun _ => compareFlags_getLsbD_of_ge _ _⟩

/-! ### What a step writes to fl (R30) -/

theorem fl_of_step_not_cmp {s t : State} (h : step s = .next t) (hn : ¬ (s.cell s.pc = 0xA7 ∧ t.fault = none)) :
    t.fl = s.fl := by
  rcases step_effects h with ⟨c, rfl, _⟩ | ⟨i, hi, _, hc⟩
  · rfl
  · have hf : t.fault = none := hc.fault.trans ((State.enabled_iff s).1 (enabled_of_step h)).2
    rcases hc.fl with ⟨_, hfl⟩ | ⟨hop, _⟩
    · exact hfl
    · exact absurd ⟨(opcode_of_fetch hi).2.trans hop, hf⟩ hn

theorem fl_of_step_cmp {s t : State} (h : step s = .next t) (hop : s.cell s.pc = 0xA7) (hf : t.fault = none) :
    ∃ p q, t.fl = compareFlags p q := by
  rcases step_effects h with ⟨c, rfl, _⟩ | ⟨i, hi, _, hc⟩
  · cases hf
  · rcases hc.fl with ⟨hne, _⟩ | ⟨_, hfl⟩
    · exact absurd ((opcode_of_fetch hi).2.symm.trans hop) hne
    · exact hfl

/-! ### An answer with its next state changed -/

/-- The same answer with `g` applied to the next state, if it is one. -/
def mapNext (g : State → State) : Result → Result
  | .next t => .next (g t)
  | .fault r => .fault r
  | .refused r => .refused r

@[simp] theorem mapNext_next (g : State → State) (t : State) : mapNext g (.next t) = .next (g t) := rfl

/-- The register check sees no flags: it passes a difference in fl on to the meaning, or to the raised state. -/
theorem withReg_setFl {a : Byte} {s : State} {f : Byte} {k k' : RegIdx → Result}
    (hk : ∀ r, k' r = mapNext (·.setFl f) (k r)) :
    withReg a (s.setFl f) k' = mapNext (·.setFl f) (withReg a s k) := by
  unfold withReg
  cases checkReg a with
  | ok r => exact hk r
  | error c => rfl

theorem withRegs_setFl {a b : Byte} {s : State} {f : Byte} {k k' : RegIdx → RegIdx → Result}
    (hk : ∀ r q, k' r q = mapNext (·.setFl f) (k r q)) :
    withRegs a b (s.setFl f) k' = mapNext (·.setFl f) (withRegs a b s k) :=
  withReg_setFl fun r => withReg_setFl (hk r)

/-! ### Two executions that differ in fl (R31) -/

/-- An instruction other than CMP does the same with any flags and leaves them as they were. -/
theorem exec_setFl_of_not_cmp {i : Instr} (hi : i.opcode ≠ 0xA7) (s : State) (f : Byte) :
    exec i (s.setFl f) = mapNext (·.setFl f) (exec i s) := by
  cases i with
  | hlt => rfl
  | ldi a v => exact withReg_setFl fun _ => rfl
  | prn a => exact withReg_setFl fun _ => rfl
  | st a b => exact withRegs_setFl fun _ _ => by rw [memWrite_byte, memWrite_byte]; rfl
  | push a => exact withReg_setFl fun _ => by rw [stackPush_eq, stackPush_eq]; rfl
  | pop a => exact withReg_setFl fun _ => by rw [stackPop_eq, stackPop_eq]; rfl
  | call a =>
    refine withReg_setFl fun _ => ?_
    by_cases hpc : 255 < s.pc + 2
    · rw [State.setFl_pc, if_pos hpc, if_pos hpc]; rfl
    · rw [State.setFl_pc, if_neg hpc, if_neg hpc, stackPush_eq, stackPush_eq]; rfl
  | ret => rw [exec, exec, execRet_eq, execRet_eq]; rfl
  | add a b => exact withRegs_setFl fun _ _ => rfl
  | mul a b => exact withRegs_setFl fun _ _ => rfl
  | and a b => exact withRegs_setFl fun _ _ => rfl
  | cmp a b => exact absurd rfl hi

/-- CMP raises the same fault with any flags, or answers the very same state: it overwrites what differed. -/
theorem execCmp_setFl_cases (a b : Byte) (s : State) (f : Byte) :
    (∃ c, execCmp a b s = raise c s ∧ execCmp a b (s.setFl f) = raise c (s.setFl f)) ∨
      ∃ t, execCmp a b s = .next t ∧ execCmp a b (s.setFl f) = .next t ∧ t.fault = s.fault := by
  by_cases ha : a.toNat < 8
  · by_cases hb : b.toNat < 8
    · exact .inr ⟨_, execCmp_of_lt s ha hb, execCmp_of_lt (s.setFl f) ha hb, rfl⟩
    · exact .inl ⟨_, withRegs_of_ge_right ha (by omega) _ _, withRegs_of_ge_right ha (by omega) _ _⟩
  · exact .inl ⟨_, withRegs_of_ge_left (by omega) _ _ _, withRegs_of_ge_left (by omega) _ _ _⟩

/-- The flags after an instruction of opcode `op` that led to `t`, had `f` been the flags before it: an executed CMP
overwrites `f`, anything else keeps it. -/
def flAfter (op : Byte) (t : State) (f : Byte) : Byte := if op = 0xA7 ∧ t.fault = none then t.fl else f

theorem flAfter_of_cmp {op : Byte} {t : State} (hop : op = 0xA7) (ht : t.fault = none) (f : Byte) :
    flAfter op t f = t.fl := if_pos ⟨hop, ht⟩

theorem flAfter_of_not_cmp {op : Byte} (hop : op ≠ 0xA7) (t : State) (f : Byte) : flAfter op t f = f :=
  if_neg fun h => hop h.1

@[simp] theorem flAfter_setFault (op : Byte) (s : State) (c : FaultCause) (f : Byte) :
    flAfter op (s.setFault c) f = f := if_neg fun h => Option.some_ne_none c h.2

theorem exec_setFl {i : Instr} {s t : State} (hs : s.fault = none) (h : exec i s = .next t) (f : Byte) :
    exec i (s.setFl f) = .next (t.setFl (flAfter i.opcode t f)) := by
  by_cases hi : i.opcode = 0xA7
  case neg => rw [exec_setFl_of_not_cmp hi, h, flAfter_of_not_cmp hi, mapNext_next]
  case pos =>
    obtain ⟨a, b, rfl⟩ : ∃ a b, i = .cmp a b := by cases i <;> simp [Instr.opcode] at hi ⊢
    have hx : execCmp a b s = .next t := h
    show execCmp a b (s.setFl f) = _
    rcases execCmp_setFl_cases a b s f with ⟨c, hc, hc'⟩ | ⟨u, hn, hn', hu⟩
    · obtain rfl : s.setFault c = t := Host.Outcome.next.inj (hc.symm.trans hx)
      rw [hc', flAfter_setFault]; rfl
    · obtain rfl : u = t := Host.Outcome.next.inj (hn.symm.trans hx)
      rw [hn', flAfter_of_cmp hi (hu.trans hs)]; rfl

/-- Two steps from states that differ in fl: the next states differ in fl at most. -/
theorem step_setFl {s t : State} (h : step s = .next t) (f : Byte) :
    step (s.setFl f) = .next (t.setFl (flAfter (s.cell s.pc) t f)) := by
  obtain ⟨he, hc⟩ := step_cases h
  have hfetch : fetch (s.setFl f) = fetch s := rfl
  rw [step_of_enabled (s := s.setFl f) he]
  rcases hc with ⟨c, hc, rfl⟩ | ⟨i, hi, hx⟩
  · rw [stepEnabled_of_fetch_error (hfetch.trans hc), flAfter_setFault]; rfl
  · rw [stepEnabled_of_fetch_ok (hfetch.trans hi), (opcode_of_fetch hi).2]
    exact exec_setFl ((State.enabled_iff s).1 he).2 hx f

/-- Settles O15: `step_effects` says what a step writes to fl, and `step_setFl` that an executed CMP forgets what stood
there. -/
theorem flagsWrittenOnlyByCmp : Obligations.FlagsWrittenOnlyByCmp := by
  intro s t h
  refine ⟨fun hop => fl_of_step_not_cmp h fun hc => hop hc.1, fun hop hf => ⟨?_, fun f u hu => ?_⟩⟩
  · obtain ⟨p, q, hfl⟩ := fl_of_step_cmp h hop hf
    rw [hfl]
    exact compareFlags_eq_one_two_or_four p q
  · obtain rfl := Host.Outcome.next.inj ((step_setFl h f).symm.trans hu)
    exact flAfter_of_cmp hop hf f

/-! ### Two runs that differ in fl (R31) -/

theorem runSteps_succ_of_step {s t : State} (h : step s = .next t) (k : Nat) : runSteps (k + 1) s = runSteps k t := by
  rw [runSteps, h]

theorem runSteps_of_not_enabled {s : State} (h : s.enabled ≠ true) (k : Nat) : runSteps k s = s := by
  cases k with
  | zero => rfl
  | succ k =>
    rw [runSteps]
    split
    · exact absurd (enabled_of_step ‹_›) h
    · rfl
    · rfl

theorem runSteps_setFl (k : Nat) (s : State) (f : Byte) : ∃ g, runSteps k (s.setFl f) = (runSteps k s).setFl g := by
  induction k generalizing s f with
  | zero => exact ⟨f, rfl⟩
  | succ k ih =>
    by_cases he : s.enabled = true
    · obtain ⟨t, ht⟩ := step_answers he
      rw [runSteps_succ_of_step ht, runSteps_succ_of_step (step_setFl ht f)]
      exact ih t _
    · have he' : (s.setFl f).enabled ≠ true := he
      exact ⟨f, by rw [runSteps_of_not_enabled he, runSteps_of_not_enabled he']⟩

/-- Settles O16: states that differ in fl alone run in lockstep, by induction on the number of rounds over
`step_setFl`. -/
theorem flagsInfluenceNothing : Obligations.FlagsInfluenceNothing :=
  fun s f k => ⟨runSteps_setFl k s f, rfl⟩

end Sys2Proof.Machine
end

section
/-! The unsupported opcodes: which they are, that the decoder refuses them and only them by that name (R88), and that
fetching one raises and does nothing else (R113). -/

namespace Sys2Proof

theorem handlerOf_eq_none_iff (op : Byte) : handlerOf op = none ↔ op ∉ supportedOpcodes := by
  rw [← handlerOf_isSome_iff, Option.not_isSome_iff_eq_none]

/-- A defined opcode is the opcode of some instruction (R86). -/
theorem exists_opcode_of_mem_supportedOpcodes {op : Byte} (h : op ∈ supportedOpcodes) : ∃ i : Instr, i.opcode = op := by
  obtain ⟨f, hf⟩ := Option.isSome_iff_exists.1 ((handlerOf_isSome_iff op).2 h)
  exact ⟨f noOperand noOperand, opcode_of_handlerOf hf _ _⟩

theorem operandCount_le_of_mem_supportedOpcodes {op : Byte} (h : op ∈ supportedOpcodes) : operandCount op ≤ 2 := by
  obtain ⟨i, rfl⟩ := exists_opcode_of_mem_supportedOpcodes h
  exact operandCount_opcode_le i

/-- The byte values that are a defined opcode are the twelve of the table (R86). -/
theorem filter_mem_supportedOpcodes_perm :
    ((List.range 256).filter fun n => decide (BitVec.ofNat 8 n ∈ supportedOpcodes)).Perm
      (supportedOpcodes.map BitVec.toNat) := by
  refine (List.perm_ext_iff_of_nodup (List.nodup_range.filter _) (by decide)).2 fun n => ?_
  simp only [List.mem_filter, List.mem_range, decide_eq_true_eq, List.mem_map]
  constructor
  · rintro ⟨hn, hop⟩
    exact ⟨_, hop, (BitVec.toNat_ofNat _ _).trans (Nat.mod_eq_of_lt hn)⟩
  · rintro ⟨op, hop, rfl⟩
    exact ⟨op.isLt, by rwa [BitVec.ofNat_toNat, BitVec.setWidth_eq]⟩

theorem length_filter_notMem_supportedOpcodes :
    ((List.range 256).filter fun n => decide (BitVec.ofNat 8 n ∉ supportedOpcodes)).length = 244 := by
  have hsplit := List.length_eq_length_filter_add (l := List.range 256)
    fun n => decide (BitVec.ofNat 8 n ∈ supportedOpcodes)
  have h12 : supportedOpcodes.length = 12 := rfl
  simp only [filter_mem_supportedOpcodes_perm.length_eq, List.length_map, h12, List.length_range, ← decide_not] at hsplit
  omega

section
variable {ε : Type} {read : Nat → Except ε Byte} {unsupported : Byte → ε} {op : Byte}

/-- An opcode without a handler is refused whatever the other bytes are (R113). -/
theorem decodeFrom_of_handlerOf_eq_none (h0 : read 0 = .ok op) (hh : handlerOf op = none) :
    decodeFrom read unsupported = .error (unsupported op) := by
  simp only [decodeFrom, h0, hh]

/-- Once the opcode has a handler, only a failing operand read can make the decoder refuse (R114). -/
theorem exists_read_error_of_decodeFrom_error {f : Handler} {e : ε} (h0 : read 0 = .ok op) (hh : handlerOf op = some f)
    (h : decodeFrom read unsupported = .error e) : ∃ k, read k = .error e := by
  have of_guarded {P : Prop} [Decidable P] {k : Nat} {e' : ε}
      (hr : (if P then read k else .ok noOperand) = .error e') : read k = .error e' := by
    split at hr
    · exact hr
    · cases hr
  rw [decodeFrom_of_opcode h0 hh] at h
  split at h
  · cases h
    exact ⟨1, of_guarded ‹_›⟩
  split at h
  · cases h
    exact ⟨2, of_guarded ‹_›⟩
  · cases h

end

theorem decode_eq_error_iff (bs : List Byte) (e : DecodeError) :
    decode bs = .error e ↔ decodeFrom (byteAt bs) .unsupportedOpcode = .error e := by
  unfold decode
  cases decodeFrom (byteAt bs) DecodeError.unsupportedOpcode <;> simp

theorem byteAt_ne_unsupportedOpcode (bs : List Byte) (k : Nat) (op : Byte) :
    byteAt bs k ≠ .error (.unsupportedOpcode op) := by
  unfold byteAt
  cases bs[k]? <;> simp

theorem decode_unsupportedOpcode_iff (op : Byte) (rest : List Byte) :
    decode (op :: rest) = .error (.unsupportedOpcode op) ↔ op ∉ supportedOpcodes := by
  have h0 : byteAt (op :: rest) 0 = .ok op := rfl
  rw [decode_eq_error_iff, ← handlerOf_eq_none_iff]
  refine ⟨fun h => ?_, decodeFrom_of_handlerOf_eq_none h0⟩
  rcases hh : handlerOf op with _ | f
  · rfl
  · obtain ⟨k, hk⟩ := exists_read_error_of_decodeFrom_error h0 hh h
    exact absurd hk (byteAt_ne_unsupportedOpcode _ _ _)

namespace Machine

theorem fetch_of_unsupported {s : State} (hpc : s.pc ≤ 255) (hop : s.cell s.pc ∉ supportedOpcodes) :
    fetch s = .error (.unsupportedOpcode (s.cell s.pc)) :=
  decodeFrom_of_handlerOf_eq_none (memRead_of_le hpc s) ((handlerOf_eq_none_iff _).2 hop)

/-- Fetching an unsupported opcode raises, whatever bytes follow it (R113). -/
theorem step_of_unsupported {s : State} (he : s.enabled = true) (hpc : s.pc ≤ 255)
    (hop : s.cell s.pc ∉ supportedOpcodes) : step s = raise (.unsupportedOpcode (s.cell s.pc)) s := by
  rw [step_of_enabled he, stepEnabled_of_fetch_error (fetch_of_unsupported hpc hop)]

/-- Settles O19: the decoder's refusals are read off the dispatch table, the 244 are the 256 byte values less the twelve,
and the step takes the fault entry of `fetch`. -/
theorem otherOpcodesUnsupported : Obligations.OtherOpcodesUnsupported := by
  refine ⟨decode_unsupportedOpcode_iff, length_filter_notMem_supportedOpcodes, fun op h3 hop => ?_,
    fun _ => step_of_unsupported⟩
  have h2 := operandCount_le_of_mem_supportedOpcodes hop
  omega

end Machine

end Sys2Proof
end

section
/-! The program counter after a step that executed an instruction: the two inputs of the multiplexer (R116). -/

namespace Sys2Proof

theorem eq_call_of_opcode {i : Instr} (h : i.opcode = 0x50) : ∃ a, i = .call a := by
  cases i <;> simp [Instr.opcode] at h ⊢

theorem eq_ret_of_opcode {i : Instr} (h : i.opcode = 0x11) : i = .ret := by
  cases i <;> simp [Instr.opcode] at h ⊢

namespace Machine

/-- A step that leaves the fault latch clear has executed the instruction at pc. -/
theorem executed_of_step {s t : State} (h : step s = .next t) (hf : t.fault = none) :
    ∃ i, fetch s = .ok i ∧ exec i s = .next t ∧ Completes i s t := by
  rcases step_effects h with ⟨c, rfl, _⟩ | hi
  · cases hf
  · exact hi

theorem pc_of_step_sequential {s t : State} (h : step s = .next t) (hf : t.fault = none)
    (hs : setsPc (s.cell s.pc) = false) : t.pc = s.pc + operandCount (s.cell s.pc) + 1 := by
  obtain ⟨i, hi, _, hc⟩ := executed_of_step h hf
  rw [(opcode_of_fetch hi).2] at hs ⊢
  rcases hc.pc with ⟨_, hpc⟩ | ⟨hset, _⟩
  · exact hpc
  · rw [hset] at hs
    cases hs

/-- A CALL that raises nothing jumps to the register its operand names, as the push has left it (R154). -/
theorem pc_of_execCall {a : Byte} {s t : State} (h : execCall a s = .next t) (hf : t.fault = none) :
    ∃ ha : a.toNat < 8, t.pc = (t.x ⟨a.toNat, ha⟩).toNat := by
  by_cases ha : a.toNat < 8
  case neg =>
    obtain rfl := Host.Outcome.next.inj ((withReg_of_ge (by omega) s _).symm.trans h)
    cases hf
  by_cases hpc : 255 < s.pc + 2
  · obtain rfl := Host.Outcome.next.inj ((execCall_of_gt s ha hpc).symm.trans h)
    cases hf
  · obtain rfl := Host.Outcome.next.inj ((execCall_of_lt s ha (by omega)).symm.trans h)
    exact ⟨ha, rfl⟩

theorem pc_of_step_call {s t : State} (h : step s = .next t) (hf : t.fault = none) (hop : s.cell s.pc = 0x50) :
    ∃ ha : (s.cell (s.pc + 1)).toNat < 8, t.pc = (t.x ⟨(s.cell (s.pc + 1)).toNat, ha⟩).toNat := by
  obtain ⟨i, hi, hx, _⟩ := executed_of_step h hf
  obtain ⟨a, rfl⟩ := eq_call_of_opcode ((opcode_of_fetch hi).2.symm.trans hop)
  have ha : s.cell (s.pc + 1) = a := (bytesAt_of_fetch hi 1 (by simp [encode, Instr.operands])).2
  rw [ha]
  exact pc_of_execCall hx hf

theorem pc_of_step_ret {s t : State} (h : step s = .next t) (hf : t.fault = none) (hop : s.cell s.pc = 0x11) :
    t.pc = (s.cell (s.x sp).toNat).toNat := by
  obtain ⟨i, hi, hx, _⟩ := executed_of_step h hf
  obtain rfl := eq_ret_of_opcode ((opcode_of_fetch hi).2.symm.trans hop)
  obtain rfl := Host.Outcome.next.inj ((execRet_eq s).symm.trans hx)
  rfl

/-- Settles O28: a step that ends without a fault has executed the instruction fetched, and each input of the
multiplexer is read off what that instruction does. -/
theorem programCounterMultiplexer : Obligations.ProgramCounterMultiplexer :=
  fun _ _ h => ⟨pc_of_step_sequential h, pc_of_step_call h, pc_of_step_ret h⟩

end Machine

end Sys2Proof
end

section
/-! What the twelve instructions' statements share: the encoding decodes to its instruction (R84, R94), and an opcode whose
operand bytes run beyond memory faults at the operand fetch (R114). -/

namespace Sys2Proof

theorem byteAt_of_lt {bs : List Byte} {k : Nat} (hk : k < bs.length) : byteAt bs k = .ok bs[k] := by
  simp only [byteAt, List.getElem?_eq_getElem hk]

theorem decode_encode (i : Instr) : decode (encode i) = .ok (i, []) := by
  have hreads : decodeFrom (byteAt (encode i)) .unsupportedOpcode = .ok i := decodeFrom_of_reads i fun _ => byteAt_of_lt
  have hrest : (encode i).drop i.length = [] := List.drop_eq_nil_of_le (encode_length i).le
  simp only [decode, hreads, hrest]

namespace Machine

theorem encodedAs_encode (i : Instr) : EncodedAs i (encode i) := ⟨rfl, decode_encode i⟩

/-- An instruction that is fetched has its last operand byte within memory (R114). -/
theorem pc_add_operandCount_le_of_fetch {s : State} {i : Instr} (h : fetch s = .ok i) :
    s.pc + operandCount i.opcode ≤ 255 :=
  (bytesAt_of_fetch h _ (by rw [encode_length, Instr.length]; omega)).1

theorem fetch_of_operands_beyond {s : State} (hpc : s.pc ≤ 255) (hop : s.cell s.pc ∈ supportedOpcodes)
    (hn : 255 < s.pc + operandCount (s.cell s.pc)) : fetch s = .error (.memoryIndex 256) := by
  rcases hf : fetch s with c | i
  · rcases fetch_error_cases hf with ⟨hgt, _⟩ | ⟨_, hnone, _⟩ | ⟨_, _, rfl⟩ | ⟨_, _, rfl⟩
    · omega
    · exact absurd hop ((handlerOf_eq_none_iff _).1 hnone)
    · rfl
    · rfl
  · have hle := pc_add_operandCount_le_of_fetch hf
    rw [← (opcode_of_fetch hf).2] at hle
    omega

theorem operandFetchFaults_of_mem {op : Byte} (hop : op ∈ supportedOpcodes) :
    OperandFetchFaults op (operandCount op) := by
  rintro s he hpc rfl hn
  rw [step_of_enabled he, stepEnabled_of_fetch_error (fetch_of_operands_beyond hpc hop hn)]
  rfl

end Machine

end Sys2Proof
end

section
/-! Machine control and output: HLT (R130) and PRN (R131). -/

namespace Sys2Proof.Machine

/-- A halted Machine has no transition (R121). -/
theorem step_ne_next_of_halted {s : State} (h : s.run = false) (t : State) : step s ≠ .next t := fun hs => by
  have hrun := ((State.enabled_iff s).1 (enabled_of_step hs)).1
  rw [h] at hrun
  cases hrun

/-- Settles O1: `execHlt_eq` gives the halted state, and `step_ne_next_of_halted` that no step follows it. -/
theorem hltStopsAndAdvancesByOne : Obligations.HltStopsAndAdvancesByOne :=
  ⟨encodedAs_encode .hlt, fun s =>
    ⟨_, execHlt_eq s, rfl, rfl, rfl, fun _ => rfl, fun _ => rfl, rfl, rfl, step_ne_next_of_halted rfl⟩⟩

/-- Settles O2: on a legal operand `execPrn_of_lt` gives the next state, on another the register check raises, and an
operand byte beyond memory faults as for every opcode of the table. -/
theorem prnOutputsRegister : Obligations.PrnOutputsRegister := by
  refine ⟨fun a s => ⟨encodedAs_encode (.prn a), fun ha => ?legal, fun ha => ?raised⟩, ?operandFetch⟩
  case legal => exact ⟨_, execPrn_of_lt s ha, rfl, rfl, rfl, fun _ => rfl, fun _ => rfl, rfl, rfl⟩
  case raised => exact withReg_of_ge ha s _
  case operandFetch => exact operandFetchFaults_of_mem (by decide : (0x47 : Byte) ∈ supportedOpcodes)

end Sys2Proof.Machine
end

section
/-! Data movement: LDI (R140) and ST (R141), from the frames of a write to one register and of a write to one cell. -/

namespace Sys2Proof.Machine

theorem sameRegsBut_setX (s : State) (r : RegIdx) (v : Byte) : SameRegsBut s (s.setX r v) (· = r) :=
  fun _ hq => State.setX_x_ne s v hq

theorem State.setCell_cell_same (s : State) (a : Nat) (v : Byte) : (s.setCell a v).cell a = v :=
  (State.setCell_cell s a a v).trans (if_pos rfl)

theorem sameMemBut_setCell (s : State) (a : Nat) (v : Byte) : SameMemBut s (s.setCell a v) a :=
  fun b hb => (State.setCell_cell s a b v).trans (if_neg hb)

/-- Settles O3: on a legal operand `execLdi_of_lt` gives the next state, one register write away from `s`; on another the
register check raises, and an operand byte beyond memory faults as for every opcode of the table. -/
theorem ldiWritesImmediate : Obligations.LdiWritesImmediate := by
  refine ⟨fun a i s => ⟨encodedAs_encode (.ldi a i), fun ha => ?legal, fun ha => ?raised⟩, ?operandFetch⟩
  case legal =>
    exact ⟨_, execLdi_of_lt s ha i, State.setX_x_same s _ i, rfl, rfl, sameRegsBut_setX s _ i, fun _ => rfl, rfl, rfl, rfl⟩
  case raised => exact withReg_of_ge ha s _
  case operandFetch => exact operandFetchFaults_of_mem (by decide : (0x82 : Byte) ∈ supportedOpcodes)

/-- Settles O4: on legal operands `execSt_of_lt` gives the next state, one cell write away from `s`; a register operand
byte above 7 is raised, the first such one, and an operand byte beyond memory faults as for every opcode of the table. -/
theorem stStoresRegisterIndirect : Obligations.StStoresRegisterIndirect := by
  refine ⟨fun a b s => ⟨encodedAs_encode (.st a b), fun ha hb => ?legal, fun ha => ?raisedA, fun ha hb => ?raisedB⟩,
    ?operandFetch⟩
  case legal =>
    exact ⟨_, execSt_of_lt s ha hb, State.setCell_cell_same s _ _, sameMemBut_setCell s _ _, rfl, rfl, fun _ => rfl, rfl,
      rfl, rfl⟩
  case raisedA => exact withRegs_of_ge_left ha b s _
  case raisedB => exact withRegs_of_ge_right ha hb s _
  case operandFetch => exact operandFetchFaults_of_mem (by decide : (0x84 : Byte) ∈ supportedOpcodes)

end Sys2Proof.Machine
end

section
/-! The stack primitives: StackPush (R150) and StackPop (R151), from the frames of one register write and one cell write. -/

namespace Sys2Proof.Machine

/-- Adding 255 is going back by one modulo 256, as R150 moves the stack pointer. -/
theorem toNat_sub_one_eq (v : Byte) : (v - 1).toNat = (v.toNat + 255) % 256 := by
  rw [BitVec.toNat_sub, Nat.add_comm]
  rfl

/-- Settles O39: `stackPush_eq` gives the state after the push. Its stack pointer is the decremented one, so the cell
written is the one the new stack pointer addresses. -/
theorem stackPushDecrementsThenWrites : Obligations.StackPushDecrementsThenWrites := by
  intro v s
  refine ⟨_, stackPush_eq v s, ?_⟩
  have hsp : ((s.setX sp (s.x sp - 1)).setCell (s.x sp - 1).toNat v).x sp = s.x sp - 1 := State.setX_x_same s sp _
  rw [hsp]
  exact ⟨toNat_sub_one_eq _, State.setCell_cell_same _ _ v, sameRegsBut_setX s sp _, sameMemBut_setCell _ _ v, rfl⟩

/-- Settles O40: `stackPop_eq` gives the byte read and the state after the pop, one register write away from `s`. -/
theorem stackPopReadsThenIncrements : Obligations.StackPopReadsThenIncrements := by
  intro s
  refine ⟨_, stackPop_eq s, ?_, sameRegsBut_setX s sp _, rfl⟩
  rw [State.setX_x_same]
  exact BitVec.toNat_add (s.x sp) 1

end Sys2Proof.Machine
end

section
/-! The ALU (R170) and its instructions ADD, MUL, AND and CMP (R171 to R174), from the one shape `aluStep` they share. -/

namespace Sys2Proof.Machine

/-! ### What the ALU yields (R170) -/

theorem toNat_ofNat_mod_256 (n : Nat) : (BitVec.ofNat 8 (n % 256)).toNat = n % 256 :=
  (BitVec.toNat_ofNat _ 8).trans (Nat.mod_mod n 256)

theorem compareFlags_of_eq {p q : Byte} (h : p.toNat = q.toNat) : compareFlags p q = 0x01 := if_pos h

theorem compareFlags_of_gt {p q : Byte} (h : q.toNat < p.toNat) : compareFlags p q = 0x02 :=
  (if_neg h.ne').trans (if_pos h)

theorem compareFlags_of_lt {p q : Byte} (h : p.toNat < q.toNat) : compareFlags p q = 0x04 :=
  (if_neg h.ne).trans (if_neg h.asymm)

/-! ### What the ALU's instructions share (R171 to R174) -/

theorem aluStep_raised_left {a : Byte} (ha : 8 ≤ a.toNat) (op : AluOp) (i : Instr) (b : Byte) (s : State) :
    Raised (aluStep op i a b s) s (.registerIndex a) :=
  withRegs_of_ge_left ha b s _

theorem aluStep_raised_right {a b : Byte} (ha : a.toNat < 8) (hb : 8 ≤ b.toNat) (op : AluOp) (i : Instr) (s : State) :
    Raised (aluStep op i a b s) s (.registerIndex b) :=
  withRegs_of_ge_right ha hb s _

theorem setX_setPc_x_same (s : State) (r : RegIdx) (v : Byte) (n : Nat) : ((s.setX r v).setPc n).x r = v :=
  State.setX_x_same s r v

/-- The frame of an instruction that writes one register and advances pc. -/
theorem setX_setPc_frame (s : State) (r : RegIdx) (v : Byte) (n : Nat) :
    SameRegsBut s ((s.setX r v).setPc n) (· = r) ∧ ((s.setX r v).setPc n).pc = n ∧
      ((s.setX r v).setPc n).fl = s.fl ∧ SameMem s ((s.setX r v).setPc n) ∧ ((s.setX r v).setPc n).out = s.out ∧
      SameStatus s ((s.setX r v).setPc n) :=
  ⟨sameRegsBut_setX s r v, rfl, rfl, fun _ => rfl, rfl, rfl, rfl⟩

/-! ### The instructions -/

/-- Settles O9: on legal operands `execAdd_of_lt` gives the next state, one register write of the sum away from `s`; the
faults are those of every ALU instruction. -/
theorem addIsSumModulo256 : Obligations.AddIsSumModulo256 := by
  refine ⟨fun a b s => ⟨encodedAs_encode (.add a b), fun ha hb => ?legal, fun ha => ?raisedA, fun ha hb => ?raisedB⟩,
    ?operandFetch⟩
  case legal =>
    refine ⟨_, execAdd_of_lt s ha hb, ?_, setX_setPc_frame s _ _ _⟩
    rw [setX_setPc_x_same, toNat_ofNat_mod_256]
  case raisedA => exact aluStep_raised_left ha .add _ b s
  case raisedB => exact aluStep_raised_right ha hb .add _ s
  case operandFetch => exact operandFetchFaults_of_mem (by decide : (0xA0 : Byte) ∈ supportedOpcodes)

/-- Settles O10: on legal operands `execMul_of_lt` gives the next state, one register write of the product away from
`s`; the faults are those of every ALU instruction. -/
theorem mulIsProductModulo256 : Obligations.MulIsProductModulo256 := by
  refine ⟨fun a b s => ⟨encodedAs_encode (.mul a b), fun ha hb => ?legal, fun ha => ?raisedA, fun ha hb => ?raisedB⟩,
    ?operandFetch⟩
  case legal =>
    refine ⟨_, execMul_of_lt s ha hb, ?_, setX_setPc_frame s _ _ _⟩
    rw [setX_setPc_x_same, toNat_ofNat_mod_256]
  case raisedA => exact aluStep_raised_left ha .mul _ b s
  case raisedB => exact aluStep_raised_right ha hb .mul _ s
  case operandFetch => exact operandFetchFaults_of_mem (by decide : (0xA2 : Byte) ∈ supportedOpcodes)

/-- Settles O11: on legal operands `execAnd_of_lt` gives the next state, one register write of the bitwise and away from
`s`; the faults are those of every ALU instruction. -/
theorem andIsBitwise : Obligations.AndIsBitwise := by
  refine ⟨fun a b s => ⟨encodedAs_encode (.and a b), fun ha hb => ?legal, fun ha => ?raisedA, fun ha hb => ?raisedB⟩,
    ?operandFetch⟩
  case legal =>
    refine ⟨_, execAnd_of_lt s ha hb, fun k _ => ?_, setX_setPc_frame s _ _ _⟩
    rw [setX_setPc_x_same, BitVec.getLsbD_and]
  case raisedA => exact aluStep_raised_left ha .and _ b s
  case raisedB => exact aluStep_raised_right ha hb .and _ s
  case operandFetch => exact operandFetchFaults_of_mem (by decide : (0xA8 : Byte) ∈ supportedOpcodes)

/-- Settles O12: on legal operands `execCmp_of_lt` gives the next state, whose fl is `compareFlags` of the two registers;
the faults are those of every ALU instruction. -/
theorem cmpWritesComparison : Obligations.CmpWritesComparison := by
  refine ⟨fun a b s => ⟨encodedAs_encode (.cmp a b), fun ha hb => ?legal, fun ha => ?raisedA, fun ha hb => ?raisedB⟩,
    ?operandFetch⟩
  case legal =>
    exact ⟨_, execCmp_of_lt s ha hb, compareFlags_of_eq, compareFlags_of_gt, compareFlags_of_lt, rfl, fun _ => rfl,
      fun _ => rfl, rfl, rfl, rfl⟩
  case raisedA => exact aluStep_raised_left ha .cmp _ b s
  case raisedB => exact aluStep_raised_right ha hb .cmp _ s
  case operandFetch => exact operandFetchFaults_of_mem (by decide : (0xA7 : Byte) ∈ supportedOpcodes)

/-- Settles O13: the value of each operation as the lemmas above give it, and the register or the flags its instruction
leaves in the next state that `execAdd_of_lt` and its three siblings state. -/
theorem aluIsPureFunction : Obligations.AluIsPureFunction := by
  refine ⟨fun p q => ⟨?sum, ?product, ?bitwise, ?comparison, fun _ => rfl⟩, fun a b ha hb s => ⟨?add, ?mul, ?and, ?cmp⟩⟩
  case sum => exact ⟨_, alu_add p q, toNat_ofNat_mod_256 _⟩
  case product => exact ⟨_, alu_mul p q, toNat_ofNat_mod_256 _⟩
  case bitwise => exact ⟨_, alu_and p q, fun _ _ => BitVec.getLsbD_and⟩
  case comparison => exact ⟨_, alu_cmp p q, compareFlags_of_eq, compareFlags_of_gt, compareFlags_of_lt⟩
  case add => exact ⟨_, execAdd_of_lt s ha hb, by rw [setX_setPc_x_same, alu_add]⟩
  case mul => exact ⟨_, execMul_of_lt s ha hb, by rw [setX_setPc_x_same, alu_mul]⟩
  case and => exact ⟨_, execAnd_of_lt s ha hb, by rw [setX_setPc_x_same, alu_and]⟩
  case cmp => exact ⟨_, execCmp_of_lt s ha hb, alu_cmp _ _, fun _ => rfl⟩

end Sys2Proof.Machine
end

section
/-! Exceptions: a fault is terminal (R199). -/

namespace Sys2Proof.Machine

/-- A faulted Machine has no step enabled (R121). -/
theorem not_enabled_of_faulted {s : State} (h : s.fault ≠ none) : s.enabled ≠ true := fun he =>
  h ((State.enabled_iff s).1 he).2

/-- Everything a load that answers a next state can have done (R226). -/
theorem load_cases {bytes : List Byte} {s u : State} (h : load bytes s = .next u) :
    bytes.length ≤ 256 ∧ u = { s with mem := Memory.place s.mem Config.loadBase bytes } := by
  unfold load at h
  split at h
  case isTrue hlen => exact ⟨hlen, (Host.Outcome.next.inj h).symm⟩
  case isFalse => cases h

/-- Settles O26: a faulted state is not enabled, so it has no step and a run returns it unchanged; a load writes memory
alone, and a reset empties the latch. -/
theorem faultsAreTerminal : Obligations.FaultsAreTerminal := by
  intro s hfault
  have hdisabled := not_enabled_of_faulted hfault
  refine ⟨?noStep, ?run, ?load, ?reset, ?notNormal⟩
  case noStep => exact fun u hu => hdisabled (enabled_of_step hu)
  case run => exact fun k => by rw [runSteps_of_not_enabled hdisabled]; exact ⟨rfl, rfl⟩
  case load =>
    intro bytes u hu
    obtain ⟨-, rfl⟩ := load_cases hu
    rfl
  case reset => exact fun p => rfl
  case notNormal => exact fun hend => hfault hend.2

end Sys2Proof.Machine
end

section
/-! Decoder and encoder agree both ways (R80 to R94), and the step runs the instruction that its bytes decode to (R117). -/

namespace Sys2Proof

theorem byteAt_eq_ok_iff (bs : List Byte) (k : Nat) (b : Byte) : byteAt bs k = .ok b ↔ bs[k]? = some b := by
  unfold byteAt
  cases bs[k]? <;> simp

/-- The decoder yields an instruction from exactly the lists that begin with its bytes. -/
theorem decodeFrom_byteAt_eq_ok_iff (bs : List Byte) (i : Instr) :
    decodeFrom (byteAt bs) .unsupportedOpcode = .ok i ↔ encode i <+: bs := by
  rw [List.prefix_iff_getElem?]
  constructor
  · exact fun h k hk => (byteAt_eq_ok_iff _ _ _).1 (reads_of_decodeFrom h k hk)
  · exact fun h => decodeFrom_of_reads i fun k hk => (byteAt_eq_ok_iff _ _ _).2 (h k hk)

theorem decode_eq_ok_iff (bs : List Byte) (i : Instr) (rest : List Byte) :
    decode bs = .ok (i, rest) ↔ encode i <+: bs ∧ bs.drop (encode i).length = rest := by
  rw [← decodeFrom_byteAt_eq_ok_iff, decode]
  cases decodeFrom (byteAt bs) DecodeError.unsupportedOpcode with
  | error e => simp
  | ok j =>
    simp only [Except.ok.injEq, Prod.mk.injEq, encode_length]
    exact and_congr_right fun hj => by rw [hj]

/-- Settles O18: a list decodes to `i` exactly when it begins with the bytes of `i`, and the rest is what stands
after them. -/
theorem decodeIffEncoding : Obligations.DecodeIffEncoding := by
  intro bs i rest
  rw [decode_eq_ok_iff]
  constructor
  · rintro ⟨⟨rest', rfl⟩, hrest⟩
    rw [← hrest, List.drop_left]
  · rintro rfl
    exact ⟨List.prefix_append _ _, List.drop_left⟩

/-- Settles O20: each word is the encoding of its instruction followed by the bytes left over. -/
theorem specWordsDecode : Obligations.SpecWordsDecode :=
  ⟨(decodeIffEncoding _ (.ldi 0 8) _).2 rfl, (decodeIffEncoding _ (.prn 0) _).2 rfl,
    (decodeIffEncoding _ .hlt _).2 rfl, (decodeIffEncoding _ (.add 0 1) _).2 rfl,
    (decodeIffEncoding _ (.call 1) _).2 rfl⟩

theorem decodeTableWord_eq_some_iff (nbits w : Nat) (i : Instr) :
    decodeTableWord nbits w = some i ↔ ∃ rest, tableBytes nbits w = encode i ++ rest := by
  simp only [← decodeIffEncoding _ _ _, decodeTableWord]
  cases decode (tableBytes nbits w) <;> simp [Prod.ext_iff]

namespace Machine

theorem step_of_bytesAt {s : State} {i : Instr} (he : s.enabled = true) (hb : BytesAt s s.pc (encode i)) :
    step s = exec i s := by
  rw [step_of_enabled he, stepEnabled_of_fetch_ok (fetch_of_bytesAt hb)]

/-- Settles O22: the fetch yields the instruction whose bytes stand at pc. -/
theorem stepRunsDecodedInstruction : Obligations.StepRunsDecodedInstruction := fun _ _ => step_of_bytesAt

theorem BytesAt.of_append {s : State} {a : Nat} {xs ys : List Byte} (h : BytesAt s a (xs ++ ys)) :
    BytesAt s a xs ∧ BytesAt s (a + xs.length) ys := by
  refine ⟨fun k hk => ?_, fun k hk => ?_⟩
  · have hb := h k (by rw [List.length_append]; omega)
    rwa [List.getElem_append_left hk] at hb
  · have hb := h (xs.length + k) (by rw [List.length_append]; omega)
    simpa [List.getElem_append_right, Nat.add_assoc] using hb

theorem bytesAt_singleton {s : State} {a : Nat} {b : Byte} (ha : a ≤ 255) (hb : s.cell a = b) : BytesAt s a [b] := by
  intro k hk
  obtain rfl : k = 0 := Nat.lt_one_iff.1 hk
  exact ⟨ha, hb⟩

/-- A placed sequence stands where it was placed, if there is room for it. -/
theorem bytesAt_place (s : State) {a : Nat} {bs : List Byte} (h : a + bs.length ≤ 256) :
    BytesAt { s with mem := Memory.place s.mem a bs } a bs := by
  intro k hk
  refine ⟨by omega, ?_⟩
  rw [State.cell, Memory.read_place, dif_pos ⟨by omega, by omega, by omega⟩]
  simp only [Nat.add_sub_cancel_left]

/-- Settles O21: the placed word begins with the encoding of `i`, so the bytes of `i` stand at pc. -/
theorem placedWordRuns : Obligations.PlacedWordRuns := by
  intro s nbits w i he hpc hw
  obtain ⟨rest, hrest⟩ := (decodeTableWord_eq_some_iff nbits w i).1 hw
  have hlen : (tableBytes nbits w).length = 3 := rfl
  have hplaced : BytesAt (s.withFetchWord nbits w) s.pc (tableBytes nbits w) := bytesAt_place s (by omega)
  rw [hrest] at hplaced
  exact step_of_bytesAt he hplaced.of_append.1

end Machine

end Sys2Proof
end

section
/-! The invariant: every step keeps it (R27, R50, R198), reset meets it and a load keeps it (R39, R226). -/

namespace Sys2Proof.Machine

theorem Completes.mem_canonical {i : Instr} {s t : State} (h : Completes i s t) (hs : Memory.wf s.mem = true) :
    Memory.wf t.mem = true := by
  rcases h.mem with hmem | ⟨_, a, v, hmem⟩
  · rwa [hmem]
  · rw [hmem]
    exact Memory.wf_write hs (byte_le a) v

/-- The byte after an instruction that was fetched whole is at most 256, and a target is a byte (R27, R116). -/
theorem Completes.pc_le {i : Instr} {s t : State} (h : Completes i s t) (hi : fetch s = .ok i) : t.pc ≤ 256 := by
  rcases h.pc with ⟨_, hpc⟩ | ⟨_, target, hpc⟩
  · have := pc_add_operandCount_le_of_fetch hi
    omega
  · have := byte_le target
    omega

/-- Settles O52: a step that faults changes the latch alone and was begun with run = 1; one that completes keeps memory
canonical and pc in range, and leaves the latch clear. -/
theorem stepKeepsInvariant : Obligations.StepKeepsInvariant := by
  intro s t hs h
  obtain ⟨hrun, hfault⟩ := (State.enabled_iff s).1 (enabled_of_step h)
  rcases step_effects h with ⟨c, rfl, _⟩ | ⟨i, hi, _, hc⟩
  · exact ⟨hs.memCanonical, hs.pcRange, fun _ => hrun⟩
  · exact ⟨hc.mem_canonical hs.memCanonical, hc.pc_le hi, fun hne => absurd (hc.fault.trans hfault) hne⟩

/-- Settles O53: the reset memory lists nothing, and pc and run are the fixed values of reset. -/
theorem resetMeetsInvariant : Obligations.ResetMeetsInvariant :=
  ⟨Memory.reset_wf, Nat.zero_le _, fun _ => rfl⟩

/-- Settles O54: reset and the load put bytes in memory by `Memory.place`, which keeps the canonical form; a load touches
nothing else. -/
theorem resetAndLoadMeetInvariant : Obligations.ResetAndLoadMeetInvariant := by
  refine ⟨fun p => ⟨Memory.wf_place rfl _ _, Nat.zero_le _, fun _ => rfl⟩, fun bytes s t hs h => ?_⟩
  obtain ⟨-, rfl⟩ := load_cases h
  exact ⟨Memory.wf_place hs.memCanonical _ _, hs.pcRange, hs.faultedRunning⟩

end Sys2Proof.Machine
end

section
/-! Stack and subroutine: PUSH, POP, CALL and RET (R152 to R155), alone and in pairs. -/

namespace Sys2Proof.Machine

/-! ### The four instructions -/

/-- Settles O5: on a legal operand `execPush_of_lt` gives the next state, one move of the stack pointer and one cell write
away from `s`; the faults are those of every one-operand instruction. -/
theorem pushWritesBelowStackPointer : Obligations.PushWritesBelowStackPointer := by
  refine ⟨fun a s => ⟨encodedAs_encode (.push a), fun ha => ?legal, fun ha => ?raised⟩, ?operandFetch⟩
  case legal =>
    exact ⟨_, execPush_of_lt s ha, State.setX_x_same s sp _, sameRegsBut_setX s sp _, State.setCell_cell_same _ _ _,
      sameMemBut_setCell _ _ _, rfl, rfl, rfl, rfl, rfl⟩
  case raised => exact withReg_of_ge ha s _
  case operandFetch => exact operandFetchFaults_of_mem (by decide : (0x45 : Byte) ∈ supportedOpcodes)

/-- Settles O6: on a legal operand `execPop_of_lt` gives the next state. The register is written after the stack pointer,
so the popped byte stands even when the two are the same register. -/
theorem popReadsAtStackPointer : Obligations.PopReadsAtStackPointer := by
  refine ⟨fun a s => ⟨encodedAs_encode (.pop a), fun ha => ?legal, fun ha => ?raised⟩, ?operandFetch⟩
  case legal =>
    refine ⟨_, execPop_of_lt s ha, State.setX_x_same _ _ _, fun h7 => ?_, fun r hr => ?_, fun _ => rfl, rfl, rfl, rfl, rfl,
      rfl⟩
    · have hne : sp ≠ ⟨a.toNat, ha⟩ := fun e => h7 (congrArg Fin.val e).symm
      exact (State.setX_x_ne _ _ hne).trans (State.setX_x_same s sp _)
    · obtain ⟨hra, hrsp⟩ := not_or.1 hr
      exact (State.setX_x_ne _ _ hra).trans (State.setX_x_ne s _ hrsp)
  case raised => exact withReg_of_ge ha s _
  case operandFetch => exact operandFetchFaults_of_mem (by decide : (0x46 : Byte) ∈ supportedOpcodes)

/-- Settles O7: with a return address that fits a cell `execCall_of_lt` gives the next state, with any other
`execCall_of_gt` the fault; the register check comes before both. -/
theorem callPushesReturnAddress : Obligations.CallPushesReturnAddress := by
  refine ⟨fun a s => ⟨encodedAs_encode (.call a), fun ha hpc => ?legal, fun ha => ?raised, fun ha hpc => ?beyond⟩,
    ?operandFetch⟩
  case legal =>
    refine ⟨_, execCall_of_lt s ha hpc, State.setX_x_same s sp _, sameRegsBut_setX s sp _, ?_, sameMemBut_setCell _ _ _,
      rfl, rfl, rfl, rfl, rfl⟩
    rw [State.setPc_cell, State.setCell_cell_same, BitVec.toNat_ofNat]
    exact Nat.mod_eq_of_lt (by omega)
  case raised => exact withReg_of_ge ha s _
  case beyond => exact execCall_of_gt s ha hpc
  case operandFetch => exact operandFetchFaults_of_mem (by decide : (0x50 : Byte) ∈ supportedOpcodes)

/-- Settles O8: `execRet_eq` gives the next state, one move of the stack pointer away from `s` but for pc. -/
theorem retPopsProgramCounter : Obligations.RetPopsProgramCounter :=
  ⟨encodedAs_encode .ret, fun s =>
    ⟨_, execRet_eq s, rfl, State.setX_x_same s sp _, sameRegsBut_setX s sp _, fun _ => rfl, rfl, rfl, rfl, rfl⟩⟩

/-! ### Two steps in a row -/

/-- The bytes of an instruction stand wherever a write to another cell leaves memory as it was. -/
theorem BytesAt.of_sameMemBut {s t : State} {w a : Nat} {bs : List Byte} (h : BytesAt s a bs) (hm : SameMemBut s t w)
    (hw : ∀ k < bs.length, a + k ≠ w) : BytesAt t a bs := fun k hk =>
  ⟨(h k hk).1, (hm _ (hw k hk)).trans (h k hk).2⟩

theorem SameStatus.enabled {s t : State} (h : SameStatus s t) (he : s.enabled = true) : t.enabled = true := by
  rwa [State.enabled, h.1, h.2]

/-- Settles O41: PUSH and POP as `pushWritesBelowStackPointer` and `popReadsAtStackPointer` say, the POP at the cell the
PUSH wrote. The operand register takes its old value back, R7 too; otherwise the stack pointer moves back up. -/
theorem pushThenPopRestoresRegisters : Obligations.PushThenPopRestoresRegisters := by
  intro s a ha he hb h2 h3
  obtain ⟨hpush, hpop⟩ := hb.of_append
  obtain ⟨-, pushes, -⟩ := pushWritesBelowStackPointer.1 a s
  obtain ⟨t, ht, htsp, htregs, htcell, htmem, htpc, htfl, htout, htst⟩ := pushes ha
  obtain ⟨-, pops, -⟩ := popReadsAtStackPointer.1 a t
  obtain ⟨u, hu, hua, husp, huregs, humem, hupc, hufl, huout, hust⟩ := pops ha
  have hpop' : BytesAt t t.pc (encode (.pop a)) := by
    rw [htpc]
    refine BytesAt.of_sameMemBut hpop htmem fun k hk => ?_
    have hk2 : k < 2 := hk
    omega
  have hregs : SameRegs s u := fun r => by
    by_cases hra : r = ⟨a.toNat, ha⟩
    · rw [hra, hua, htsp, htcell]
    by_cases hrsp : r = sp
    · have h7 : a.toNat ≠ 7 := fun e => hra (hrsp.trans (Fin.ext e.symm))
      rw [hrsp, husp h7, htsp, BitVec.sub_add_cancel]
    · rw [huregs r (not_or.2 ⟨hra, hrsp⟩), htregs r hrsp]
  exact ⟨t, u, (step_of_bytesAt he hpush).trans ht, (step_of_bytesAt (htst.enabled he) hpop').trans hu, hregs,
    (humem _).trans htcell, fun b hbne => (humem b).trans (htmem b hbne), by rw [hupc, htpc], hufl.trans htfl,
    huout.trans htout, hust.1.trans htst.1, hust.2.trans htst.2⟩

/-- Settles O42: CALL and RET as `callPushesReturnAddress` and `retPopsProgramCounter` say, the RET popping the cell the
CALL wrote. -/
theorem callThenRetReturns : Obligations.CallThenRetReturns := by
  intro s a ha he hb hpc
  obtain ⟨-, calls, -⟩ := callPushesReturnAddress.1 a s
  obtain ⟨t, ht, htsp, htregs, htcell, htmem, htpc, htfl, htout, htst⟩ := calls ha hpc
  refine ⟨t, (step_of_bytesAt he hb).trans ht, fun hret => ?_⟩
  obtain ⟨u, hu, hupc, husp, huregs, humem, hufl, huout, hust⟩ := retPopsProgramCounter.2 t
  have hret' : BytesAt t t.pc (encode .ret) := bytesAt_singleton (by rw [htpc]; exact byte_le _) hret
  have hregs : SameRegs s u := fun r => by
    by_cases hrsp : r = sp
    · rw [hrsp, husp, htsp, BitVec.sub_add_cancel]
    · rw [huregs r hrsp, htregs r hrsp]
  exact ⟨u, (step_of_bytesAt (htst.enabled he) hret').trans hu, by rw [hupc, htsp, htcell], hregs,
    by rw [humem, htcell], fun b hbne => (humem b).trans (htmem b hbne), hufl.trans htfl, huout.trans htout,
    hust.1.trans htst.1, hust.2.trans htst.2⟩

end Sys2Proof.Machine
end

section
/-! How a step ends (R110, R197, R198), and how a run does (R119, R120). -/

namespace Sys2Proof.Machine

/-! ### No step (R121) -/

/-- A Machine that has halted or faulted has no step enabled (R110). -/
theorem not_enabled_of_ended {s : State} (h : s.run = false ∨ s.fault ≠ none) : s.enabled ≠ true := by
  rw [Ne, State.enabled_iff, not_and_or, Bool.not_eq_true]
  exact h

/-- A state with no step enabled is stuck. -/
theorem step_stuck {s : State} (h : s.enabled ≠ true) : ∃ r, step s = .fault r := by
  rw [Ne, State.enabled_iff] at h
  unfold step
  split
  · exact ⟨_, rfl⟩
  · exact ⟨_, if_neg fun hrun => h ⟨hrun, ‹_›⟩⟩

/-- Settles O24: no step is enabled, so the step is stuck and a run takes no round. -/
theorem noStepWhenHaltedOrFaulted : Obligations.NoStepWhenHaltedOrFaulted := fun _ h =>
  ⟨step_stuck (not_enabled_of_ended h), runSteps_of_not_enabled (not_enabled_of_ended h)⟩

/-! ### A fault (R197, R198) -/

/-- A step that ends with the latch set has changed nothing else, and run is still 1 (R198). -/
theorem faulted_of_step {s t : State} (h : step s = .next t) (hf : t.fault ≠ none) :
    t = { s with fault := t.fault } ∧ t.run = true := by
  obtain ⟨hrun, hfault⟩ := (State.enabled_iff s).1 (enabled_of_step h)
  rcases step_effects h with ⟨c, rfl, _⟩ | ⟨i, _, _, hc⟩
  · exact ⟨rfl, hrun⟩
  · exact absurd (hc.fault.trans hfault) hf

/-- Settles O25: a step sets the latch only by the fault entry, as `faulted_of_step` says. -/
theorem faultsArePrecise : Obligations.FaultsArePrecise := fun _ _ => faulted_of_step

/-! ### HLT (R130) -/

theorem opcode_eq_hlt_iff (i : Instr) : i.opcode = 0x01 ↔ i = .hlt := by
  cases i <;> simp [Instr.opcode]

/-- An enabled step at a byte 0x01 halts. -/
theorem step_of_hlt {s : State} (he : s.enabled = true) (hpc : s.pc ≤ 255) (hop : s.cell s.pc = 0x01) :
    step s = .next ((s.setRun false).setPc (s.pc + 1)) :=
  (step_of_bytesAt (i := .hlt) he (bytesAt_singleton hpc hop)).trans (execHlt_eq s)

/-- A step clears the running flag exactly when it runs HLT (R33). -/
theorem run_eq_false_iff_of_step {s t : State} (h : step s = .next t) :
    t.run = false ↔ s.pc ≤ 255 ∧ s.cell s.pc = 0x01 := by
  have he := enabled_of_step h
  constructor
  · intro ht
    have hrun : ¬ s.run = false := by simp [((State.enabled_iff s).1 he).1]
    rcases step_effects h with ⟨c, rfl, _⟩ | ⟨i, hi, _, hc⟩
    · exact absurd ht hrun
    · have hhlt : i = .hlt := by
        by_contra hne
        exact hrun ((hc.run.trans (if_neg hne)).symm.trans ht)
      rw [(opcode_of_fetch hi).2]
      exact ⟨(opcode_of_fetch hi).1, (opcode_eq_hlt_iff i).2 hhlt⟩
  · rintro ⟨hpc, hop⟩
    obtain rfl := Host.Outcome.next.inj ((step_of_hlt he hpc hop).symm.trans h)
    rfl

/-- Settles O33: reset sets run, a load leaves it, and `run_eq_false_iff_of_step` says when a step clears it. -/
theorem runClearedOnlyByHlt : Obligations.RunClearedOnlyByHlt := by
  refine ⟨fun _ => rfl, fun bytes s t h => ?_, fun _ _ => run_eq_false_iff_of_step⟩
  obtain ⟨-, rfl⟩ := load_cases h
  rfl

/-- Settles O23: the latch tells the faulting end from the other two, and the running flag tells those two apart. -/
theorem stepEndsInOneOfThreeWays : Obligations.StepEndsInOneOfThreeWays := by
  intro s
  refine ⟨⟨fun ⟨t, ht⟩ => (State.enabled_iff s).1 (enabled_of_step ht),
    fun h => step_answers ((State.enabled_iff s).2 h)⟩, fun t ht => ?_⟩
  have hhlt := run_eq_false_iff_of_step ht
  rcases hf : t.fault with _ | c
  · cases hr : t.run with
    | true => exact .inl ⟨rfl, rfl, fun h => by simp [hhlt.2 h] at hr⟩
    | false => exact .inr (.inl ⟨rfl, rfl, hhlt.1 hr⟩)
  · refine .inr (.inr ⟨c, ?_⟩)
    rw [← hf]
    exact (faulted_of_step ht (by simp [hf])).1

/-! ### The end of a run -/

theorem runSteps_add (k j : Nat) (s : State) : runSteps (k + j) s = runSteps j (runSteps k s) := by
  induction k generalizing s with
  | zero => rw [Nat.zero_add]; rfl
  | succ k ih =>
    by_cases he : s.enabled = true
    · obtain ⟨t, ht⟩ := step_answers he
      rw [Nat.succ_add, runSteps_succ_of_step ht, runSteps_succ_of_step ht, ih]
    · rw [runSteps_of_not_enabled he, runSteps_of_not_enabled he, runSteps_of_not_enabled he]

/-- Once a run has ended, more rounds lead to the same state. -/
theorem runSteps_of_le_of_ended {k j : Nat} {s : State} (hkj : k ≤ j) (hend : (runSteps k s).enabled = false) :
    runSteps j s = runSteps k s := by
  rw [← Nat.add_sub_cancel' hkj, runSteps_add, runSteps_of_not_enabled (by simp [hend])]

/-- Settles O49: the run allowed more rounds has passed through the end of the other, and stays there. -/
theorem runResultIsUnique : Obligations.RunResultIsUnique := by
  rintro s t u ⟨ht, k, rfl⟩ ⟨hu, j, rfl⟩
  rcases Nat.le_total k j with hkj | hjk
  · exact (runSteps_of_le_of_ended hkj ht).symm
  · exact runSteps_of_le_of_ended hjk hu

/-- A run that takes at least one step and ends has a last step. -/
theorem exists_last_step {k : Nat} {s : State} (hs : s.enabled = true) (hend : (runSteps k s).enabled = false) :
    ∃ (j : Nat) (u : State), Steps j s u ∧ step u = .next (runSteps k s) := by
  induction k generalizing s with
  | zero =>
    have hend' : s.enabled = false := hend
    rw [hs] at hend'
    cases hend'
  | succ k ih =>
    obtain ⟨t, ht⟩ := step_answers hs
    rw [runSteps_succ_of_step ht] at hend ⊢
    by_cases he : t.enabled = true
    · obtain ⟨j, u, hu, hlast⟩ := ih he hend
      exact ⟨j + 1, u, ⟨t, ht, hu⟩, hlast⟩
    · rw [runSteps_of_not_enabled he]
      exact ⟨0, s, rfl, ht⟩

/-- A step after which none is enabled has run HLT or has faulted (R120). -/
theorem ended_of_step {u t : State} (h : step u = .next t) (hend : t.enabled = false) :
    (EndedNormally t ∧ u.cell u.pc = 0x01 ∧ t.pc = u.pc + 1) ∨ (EndedInFailure t ∧ t = { u with fault := t.fault }) := by
  by_cases hf : t.fault = none
  case neg => exact .inr ⟨hf, (faulted_of_step h hf).1⟩
  have hrun : t.run = false := by simpa [State.enabled, hf] using hend
  obtain ⟨hpc, hop⟩ := (run_eq_false_iff_of_step h).1 hrun
  obtain rfl := Host.Outcome.next.inj ((step_of_hlt (enabled_of_step h) hpc hop).symm.trans h)
  exact .inl ⟨⟨hrun, hf⟩, hop, rfl⟩

/-- Settles O48: a run begun with a step enabled has a last step, and that step ran HLT or faulted. -/
theorem runEndsByHaltOrFault : Obligations.RunEndsByHaltOrFault := by
  rintro s t hs ⟨hend, k, rfl⟩
  obtain ⟨j, u, hu, hlast⟩ := exists_last_step hs hend
  refine ⟨fun v hv => ?_, j, u, hu, hlast, ended_of_step hlast hend⟩
  have := enabled_of_step hv
  rw [hend] at this
  cases this

end Sys2Proof.Machine
end

section
/-! The faults: which is raised when several conditions hold (R200), and where each occurs and what it records (R191 to
R196). -/

namespace Sys2Proof

/-- A decoder that cannot read the opcode reads nothing else. -/
theorem decodeFrom_of_read_zero_error {ε : Type} {read : Nat → Except ε Byte} {unsupported : Byte → ε} {e : ε}
    (h : read 0 = .error e) : decodeFrom read unsupported = .error e := by
  simp only [decodeFrom, h]

namespace Machine

/-! ### The order of the checks (R200) -/

theorem step_of_fetch_error {s : State} {c : FaultCause} (he : s.enabled = true) (h : fetch s = .error c) :
    Raised (step s) s c :=
  (step_of_enabled he).trans (stepEnabled_of_fetch_error h)

theorem fetch_of_pc_beyond {s : State} (h : 255 < s.pc) : fetch s = .error (.memoryIndex s.pc) :=
  decodeFrom_of_read_zero_error (memRead_of_gt h s)

/-- The first check an instruction makes is of its first register operand. -/
theorem exec_eq_withReg {i : Instr} {a : Byte} {more : List Byte} (h : i.regOperands = a :: more) (s : State) :
    ∃ k, exec i s = withReg a s k := by
  cases i <;> cases h <;> exact ⟨_, rfl⟩

theorem exec_eq_withRegs {i : Instr} {a b : Byte} (h : i.regOperands = [a, b]) (s : State) :
    ∃ k, exec i s = withRegs a b s k := by
  cases i <;> cases h <;> exact ⟨_, rfl⟩

/-- Settles O27: the fetch raises what concerns the instruction's bytes, before any instruction runs; then its register
checks come in the order of its operands, and CALL's return address last. -/
theorem faultPriorityIsStepOrder : Obligations.FaultPriorityIsStepOrder := by
  intro s he
  refine ⟨fun hpc => ?opcodeFetch, fun hpc hop => ?lookup, fun hpc hop hn hgt => ?operand1, fun hpc hop hn hgt => ?operand2,
    fun i a more hb hi ha => ?registerA, fun i a b hb hi ha hb8 => ?registerB, fun a hb ha hpc => ?returnAddress⟩
  case opcodeFetch => exact step_of_fetch_error he (fetch_of_pc_beyond hpc)
  case lookup => exact step_of_unsupported he hpc hop
  case operand1 =>
    rw [show s.pc + 1 = 256 by omega]
    exact step_of_fetch_error he (fetch_of_operands_beyond hpc hop (by omega))
  case operand2 =>
    rw [show s.pc + 2 = 256 by omega]
    exact step_of_fetch_error he (fetch_of_operands_beyond (by omega) hop (by omega))
  case registerA =>
    obtain ⟨k, hk⟩ := exec_eq_withReg hi s
    rw [step_of_bytesAt he hb, hk]
    exact withReg_of_ge ha s k
  case registerB =>
    obtain ⟨k, hk⟩ := exec_eq_withRegs hi s
    rw [step_of_bytesAt he hb, hk]
    exact withRegs_of_ge_right ha hb8 s k
  case returnAddress =>
    rw [step_of_bytesAt he hb]
    exact execCall_of_gt s ha hpc

/-! ### Where each fault occurs and what it records (R191 to R196) -/

/-- The latch after a step holds a cause that the fetch raised, or the instruction fetched. -/
theorem fault_cases_of_step {s t : State} {c : FaultCause} (h : step s = .next t) (hc : t.fault = some c) :
    fetch s = .error c ∨ ∃ i, fetch s = .ok i ∧ RaisesIn i s c := by
  rcases step_effects h with ⟨c', rfl, hcause⟩ | ⟨i, _, _, hcomp⟩
  · obtain rfl : c' = c := Option.some.inj hc
    exact hcause
  · rw [hcomp.fault, ((State.enabled_iff s).1 (enabled_of_step h)).2] at hc
    cases hc

/-- Settles O29: of the fetch's faults three read beyond memory, and the invariant bounds pc; no instruction raises this
cause. -/
theorem memoryFaultsRecord256 : Obligations.MemoryFaultsRecord256 := by
  intro s t addr hs h hfault
  have hpc := hs.pcRange
  rcases fault_cases_of_step h hfault with hfetch | ⟨i, _, hraises⟩
  case inr => rcases hraises with ⟨_, _, _, hc⟩ | ⟨_, _, _, hc⟩ <;> cases hc
  rcases fetch_error_cases hfetch with ⟨hgt, hc⟩ | ⟨_, _, hc⟩ | ⟨h255, hn, hc⟩ | ⟨h254, hn, hc⟩
  · cases hc
    have h256 : s.pc = 256 := by omega
    exact ⟨h256, .inl h256⟩
  · cases hc
  · cases hc
    exact ⟨rfl, .inr (.inl ⟨h255, hn⟩)⟩
  · cases hc
    exact ⟨rfl, .inr (.inr ⟨h254, hn⟩)⟩

/-- The fetch raises only what concerns memory or the opcode. -/
theorem fetch_error_memoryIndex_or_unsupportedOpcode {s : State} {c : FaultCause} (h : fetch s = .error c) :
    (∃ addr, c = .memoryIndex addr) ∨ ∃ op, c = .unsupportedOpcode op := by
  rcases fetch_error_cases h with ⟨_, hc⟩ | ⟨_, _, hc⟩ | ⟨_, _, hc⟩ | ⟨_, _, hc⟩
  · exact .inl ⟨_, hc⟩
  · exact .inr ⟨_, hc⟩
  · exact .inl ⟨_, hc⟩
  · exact .inl ⟨_, hc⟩

/-- A cause that concerns neither memory nor the opcode was raised by the instruction whose bytes stand at pc. -/
theorem raisesIn_of_step {s t : State} {c : FaultCause} (h : step s = .next t) (hc : t.fault = some c)
    (hmem : ∀ addr, c ≠ .memoryIndex addr) (hop : ∀ op, c ≠ .unsupportedOpcode op) :
    ∃ i, fetch s = .ok i ∧ RaisesIn i s c := by
  rcases fault_cases_of_step h hc with hfetch | hi
  · rcases fetch_error_memoryIndex_or_unsupportedOpcode hfetch with ⟨addr, e⟩ | ⟨op, e⟩
    · exact absurd e (hmem addr)
    · exact absurd e (hop op)
  · exact hi

/-- Settles O30: only CALL raises it, when pc + 2 is above 255; but its operand byte was fetched at pc + 1. -/
theorem returnAddressFaultOnlyAt254 : Obligations.ReturnAddressFaultOnlyAt254 := by
  intro s t addr _ h hfault
  obtain ⟨i, hi, ⟨_, _, _, hc⟩ | ⟨a, rfl, hgt, hc⟩⟩ := raisesIn_of_step h hfault nofun nofun
  · cases hc
  · have hle : s.pc + 1 ≤ 255 := (bytesAt_of_fetch hi 1 (by simp [encode, Instr.operands])).1
    cases hc
    exact ⟨by omega, by omega, (opcode_of_fetch hi).2⟩

/-- Settles O31: the cause is the byte the register check of the instruction fetched refused. -/
theorem registerFaultRecordsOperandByte : Obligations.RegisterFaultRecordsOperandByte := by
  intro s t b h hfault
  obtain ⟨i, hi, ⟨b', hmem, hge, hc⟩ | ⟨_, _, _, hc⟩⟩ := raisesIn_of_step h hfault nofun nofun
  · cases hc
    exact ⟨hge, i, bytesAt_of_fetch hi, hmem⟩
  · cases hc

/-- Settles O32: the fetch does not raise it, and neither does any instruction. -/
theorem aluFaultUnreachable : Obligations.AluFaultUnreachable := by
  intro s t name h hfault
  obtain ⟨i, _, ⟨_, _, _, hc⟩ | ⟨_, _, _, hc⟩⟩ := raisesIn_of_step h hfault nofun nofun <;> cases hc

end Machine

end Sys2Proof
end

section
/-! Memory: the two primitives (R52, R53), the canonical form, what a step can write (R55), and instruction-fetch
coherence (R65). -/

namespace Sys2Proof.Machine

/-! ### The primitives -/

/-- Settles O34: the two sides of the bound, and that a byte is within it. -/
theorem memReadIsBoundsChecked : Obligations.MemReadIsBoundsChecked := fun _ s =>
  ⟨fun h => memRead_of_gt h s, fun h => memRead_of_le h s, fun v => memRead_byte v s⟩

/-- Settles O35: within memory a write is `setCell`, whose frame is one cell. -/
theorem memWriteChangesOneCell : Obligations.MemWriteChangesOneCell := fun addr v s =>
  ⟨fun h => memWrite_of_gt h v s,
    fun h => ⟨_, memWrite_of_le h v s, State.setCell_cell_same s addr v, sameMemBut_setCell s addr v, rfl⟩,
    fun a => ⟨_, memWrite_byte a v s⟩⟩

/-! ### The canonical form -/

theorem Memory.read_cons_same (a : Nat) (v : Byte) (m : Memory) : Memory.read ((a, v) :: m) a = v := if_pos rfl

theorem Memory.read_cons_ne {a b : Nat} (h : a ≠ b) (v : Byte) (m : Memory) :
    Memory.read ((a, v) :: m) b = Memory.read m b := if_neg h

/-- A memory that lists `a` differs there from one that lists only addresses above `a`. -/
theorem Memory.read_cons_ne_read_of_lt {a : Nat} {v : Byte} {m m' : Memory} (hm : Memory.wf ((a, v) :: m) = true)
    (hm' : ∀ c ∈ m', a < c.1) : Memory.read ((a, v) :: m) a ≠ Memory.read m' a := by
  rw [Memory.read_cons_same, Memory.read_of_lt hm']
  exact ((Memory.wf_cons a v m).1 hm).2.1

/-- In a canonical memory every listed address is at least the first. -/
theorem Memory.lt_of_lt_head {a b : Nat} {v : Byte} {m : Memory} (hm : Memory.wf ((b, v) :: m) = true) (hab : a < b) :
    ∀ c ∈ (b, v) :: m, a < c.1 := by
  obtain ⟨-, -, hall, -⟩ := (Memory.wf_cons b v m).1 hm
  intro c hc
  rcases List.mem_cons.1 hc with rfl | hc
  · exact hab
  · exact hab.trans (hall c hc)

/-- Canonical memories with the same first cell that read alike have tails that read alike. -/
theorem Memory.read_tail_eq {a : Nat} {v : Byte} {m m' : Memory} (hm : Memory.wf ((a, v) :: m) = true)
    (hm' : Memory.wf ((a, v) :: m') = true)
    (h : ∀ b ≤ 255, Memory.read ((a, v) :: m) b = Memory.read ((a, v) :: m') b) :
    ∀ b ≤ 255, Memory.read m b = Memory.read m' b := by
  obtain ⟨-, -, hall, -⟩ := (Memory.wf_cons a v m).1 hm
  obtain ⟨-, -, hall', -⟩ := (Memory.wf_cons a v m').1 hm'
  intro b hb
  by_cases hab : a = b
  · subst hab
    rw [Memory.read_of_lt hall, Memory.read_of_lt hall']
  · have := h b hb
    rwa [Memory.read_cons_ne hab, Memory.read_cons_ne hab] at this

/-- Settles O36, by induction along both lists: their first cells agree, since the lower of two different addresses would
read as unlisted in the other memory. -/
theorem canonicalMemoryIsUnique : Obligations.CanonicalMemoryIsUnique := by
  intro m
  induction m with
  | nil =>
    rintro (_ | ⟨⟨a', v'⟩, m'⟩) hm hm' h
    · rfl
    · obtain ⟨ha', -⟩ := (Memory.wf_cons a' v' m').1 hm'
      exact absurd (h a' ha').symm (Memory.read_cons_ne_read_of_lt hm' nofun)
  | cons c m ih =>
    obtain ⟨a, v⟩ := c
    rintro (_ | ⟨⟨a', v'⟩, m'⟩) hm hm' h <;> obtain ⟨ha, -, -, htail⟩ := (Memory.wf_cons a v m).1 hm
    · exact absurd (h a ha) (Memory.read_cons_ne_read_of_lt hm nofun)
    · obtain ⟨ha', -, -, htail'⟩ := (Memory.wf_cons a' v' m').1 hm'
      rcases Nat.lt_trichotomy a a' with hlt | rfl | hgt
      · exact absurd (h a ha) (Memory.read_cons_ne_read_of_lt hm (Memory.lt_of_lt_head hm' hlt))
      · obtain rfl : v = v' := by simpa only [Memory.read_cons_same] using h a ha
        rw [ih m' htail htail' (Memory.read_tail_eq hm hm' h)]
      · exact absurd (h a' ha').symm (Memory.read_cons_ne_read_of_lt hm' (Memory.lt_of_lt_head hm hgt))

/-! ### What a step can write (R55) -/

section
variable {a b : Byte} (s : State)

theorem storeAddress_st_of_lt (ha : a.toNat < 8) (hb : b.toNat < 8) :
    storeAddress (.st a b) s = some (s.x ⟨a.toNat, ha⟩).toNat := by
  simp only [storeAddress, checkReg_of_lt ha, checkReg_of_lt hb]

theorem storeAddress_push_of_lt (ha : a.toNat < 8) : storeAddress (.push a) s = some (s.x sp - 1).toNat := by
  simp only [storeAddress, checkReg_of_lt ha]

theorem storeAddress_call_of_lt (ha : a.toNat < 8) (hpc : s.pc + 2 ≤ 255) :
    storeAddress (.call a) s = some (s.x sp - 1).toNat := by
  simp only [storeAddress, checkReg_of_lt ha, if_pos hpc]

end

/-- From `s` to `t` memory stays as it is, or takes one write, at the address `i` stores to. -/
def WritesOnlyStoreAddress (i : Instr) (s t : State) : Prop :=
  t.mem = s.mem ∨ ∃ (w : Nat) (v : Byte), storeAddress i s = some w ∧ t.mem = Memory.write s.mem w v

theorem WritesOnlyStoreAddress.cell_eq {i : Instr} {s t : State} (h : WritesOnlyStoreAddress i s t) {a : Nat}
    (ha : storeAddress i s ≠ some a) : t.cell a = s.cell a := by
  rcases h with hmem | ⟨w, v, hw, hmem⟩
  · rw [State.cell, hmem, State.cell]
  · have hne : a ≠ w := fun e => ha (by rw [hw, e])
    rw [State.cell, hmem, Memory.read_write, if_neg hne, State.cell]

section
variable {a b : Byte} {s t : State}

theorem execSt_writesOnly (h : execSt a b s = .next t) : WritesOnlyStoreAddress (.st a b) s t := by
  by_cases ha : a.toNat < 8
  case neg =>
    obtain rfl := Host.Outcome.next.inj ((withRegs_of_ge_left (by omega) b s _).symm.trans h)
    exact .inl rfl
  by_cases hb : b.toNat < 8
  case neg =>
    obtain rfl := Host.Outcome.next.inj ((withRegs_of_ge_right ha (by omega) s _).symm.trans h)
    exact .inl rfl
  obtain rfl := Host.Outcome.next.inj ((execSt_of_lt s ha hb).symm.trans h)
  exact .inr ⟨_, _, storeAddress_st_of_lt s ha hb, rfl⟩

theorem execPush_writesOnly (h : execPush a s = .next t) : WritesOnlyStoreAddress (.push a) s t := by
  by_cases ha : a.toNat < 8
  case neg =>
    obtain rfl := Host.Outcome.next.inj ((withReg_of_ge (by omega) s _).symm.trans h)
    exact .inl rfl
  obtain rfl := Host.Outcome.next.inj ((execPush_of_lt s ha).symm.trans h)
  exact .inr ⟨_, _, storeAddress_push_of_lt s ha, rfl⟩

theorem execCall_writesOnly (h : execCall a s = .next t) : WritesOnlyStoreAddress (.call a) s t := by
  by_cases ha : a.toNat < 8
  case neg =>
    obtain rfl := Host.Outcome.next.inj ((withReg_of_ge (by omega) s _).symm.trans h)
    exact .inl rfl
  by_cases hpc : 255 < s.pc + 2
  · obtain rfl := Host.Outcome.next.inj ((execCall_of_gt s ha hpc).symm.trans h)
    exact .inl rfl
  · obtain rfl := Host.Outcome.next.inj ((execCall_of_lt s ha (by omega)).symm.trans h)
    exact .inr ⟨_, _, storeAddress_call_of_lt s ha (by omega), rfl⟩

end

theorem eq_st_push_or_call_of_opcode_mem {i : Instr} (h : i.opcode ∈ ([0x84, 0x45, 0x50] : List Byte)) :
    (∃ a b, i = .st a b) ∨ (∃ a, i = .push a) ∨ ∃ a, i = .call a := by
  cases i <;> simp [Instr.opcode] at h ⊢

theorem exec_writesOnly {i : Instr} {s t : State} (h : exec i s = .next t) : WritesOnlyStoreAddress i s t := by
  rcases exec_raises_or_completes i s with ⟨c, _, hc⟩ | ⟨u, hu, hc⟩
  · obtain rfl := Host.Outcome.next.inj (hc.symm.trans h)
    exact .inl rfl
  obtain rfl := Host.Outcome.next.inj (hu.symm.trans h)
  rcases hc.mem with hmem | ⟨hop, -⟩
  · exact .inl hmem
  rcases eq_st_push_or_call_of_opcode_mem hop with ⟨a, b, rfl⟩ | ⟨a, rfl⟩ | ⟨a, rfl⟩
  · exact execSt_writesOnly h
  · exact execPush_writesOnly h
  · exact execCall_writesOnly h

theorem sameMem_of_step_of_opcode {s t : State} (h : step s = .next t)
    (hop : s.cell s.pc ∉ ([0x84, 0x45, 0x50] : List Byte)) : SameMem s t := by
  rcases step_effects h with ⟨c, rfl, _⟩ | ⟨i, hi, _, hc⟩
  · exact fun _ => rfl
  · rcases hc.mem with hmem | ⟨hstores, -⟩
    · exact fun a => congrArg (Memory.read · a) hmem
    · rw [(opcode_of_fetch hi).2] at hop
      exact absurd hstores hop

/-- Settles O37: an opcode that stores nothing and a fault leave memory whole, and an execution writes at most the one cell
that `storeAddress` names. -/
theorem memoryWrittenOnlyAtStoreAddress : Obligations.MemoryWrittenOnlyAtStoreAddress := by
  intro s t h
  refine ⟨fun hst hpush hcall => ?opcode, fun hf => ?faulted, fun i hb a ha => ?executed⟩
  case opcode => exact sameMem_of_step_of_opcode h (by simpa using ⟨hst, hpush, hcall⟩)
  case faulted =>
    rw [(faulted_of_step h hf).1]
    exact fun _ => rfl
  case executed =>
    rw [step_of_bytesAt (enabled_of_step h) hb] at h
    exact (exec_writesOnly h).cell_eq ha

/-- Settles O38: the ST leaves 0x01 in the cell at its new pc, so the next fetch reads the stored byte, and HLT runs. -/
theorem hltStoredOverNextOpcodeHalts : Obligations.HltStoredOverNextOpcodeHalts := by
  intro s a b ha hb he hbytes haddr hbyte
  obtain ⟨t, ht, htcell, -, htpc, -, -, -, htst⟩ := (stStoresRegisterIndirect.1 a b s).2.1 ha hb
  rw [haddr, ← htpc] at htcell
  have hpc : t.pc ≤ 255 := by
    rw [htpc, ← haddr]
    exact byte_le _
  have hte := htst.enabled he
  refine ⟨t, _, (step_of_bytesAt he hbytes).trans ht, step_of_hlt hte hpc (htcell.trans hbyte), rfl, ?_, ?_⟩
  · exact ((State.enabled_iff t).1 hte).2
  · rw [State.setPc_pc, htpc]

end Sys2Proof.Machine
end

section
/-! The output history: what a step appends to it (R132, R133), and that nothing reads it (R35). -/

namespace Sys2Proof.Machine

/-! ### What a step appends (R131, R133) -/

theorem out_of_step_not_prn {s t : State} (h : step s = .next t) (hop : s.cell s.pc ≠ 0x47) : t.out = s.out := by
  rcases step_effects h with ⟨c, rfl, _⟩ | ⟨i, hi, _, hc⟩
  · rfl
  · rcases hc.out with ⟨_, hout⟩ | ⟨hprn, _⟩
    · exact hout
    · exact absurd ((opcode_of_fetch hi).2.trans hprn) hop

theorem out_of_step_prn {s t : State} (h : step s = .next t) (hf : t.fault = none) (hop : s.cell s.pc = 0x47) :
    ∃ ha : (s.cell (s.pc + 1)).toNat < 8, t.out = s.out ++ [s.x ⟨(s.cell (s.pc + 1)).toNat, ha⟩] := by
  obtain ⟨i, hi, _, hc⟩ := executed_of_step h hf
  rcases hc.out with ⟨hne, _⟩ | ⟨_, a, ha, rfl, hout⟩
  · exact absurd ((opcode_of_fetch hi).2.symm.trans hop) hne
  · have hbyte : s.cell (s.pc + 1) = a := (bytesAt_of_fetch hi 1 (by simp [encode, Instr.operands])).2
    rw [hbyte]
    exact ⟨ha, hout⟩

/-- Settles O43: of the instructions only PRN appends, a fault appends nothing, and no round of a run is taken after the
end. -/
theorem outputInProgramOrder : Obligations.OutputInProgramOrder := by
  refine ⟨fun s t h => ⟨out_of_step_not_prn h, fun hf => ?faulted, out_of_step_prn h⟩, fun s k hend => ?ended⟩
  case faulted => rw [(faulted_of_step h hf).1]
  case ended => rw [runSteps_of_not_enabled (not_enabled_of_ended hend)]

/-! ### A longer past (R35) -/

/-- The same state with the values `past` output before all others. -/
def State.withPast (past : List Byte) (s : State) : State := { s with out := past ++ s.out }

theorem State.withPast_output (past : List Byte) (s : State) (v : Byte) :
    (s.withPast past).output v = (s.output v).withPast past := by
  simp only [State.output, State.withPast, List.append_assoc]

/-- The register check passes on any change of the state that fault entry keeps. -/
theorem withReg_mapNext {g : State → State} {s : State} (hg : ∀ c, (g s).setFault c = g (s.setFault c)) {a : Byte}
    {k k' : RegIdx → Result} (hk : ∀ r, k' r = mapNext g (k r)) :
    withReg a (g s) k' = mapNext g (withReg a s k) := by
  unfold withReg
  cases checkReg a with
  | ok r => exact hk r
  | error c => exact congrArg Host.Outcome.next (hg c)

theorem withRegs_mapNext {g : State → State} {s : State} (hg : ∀ c, (g s).setFault c = g (s.setFault c)) {a b : Byte}
    {k k' : RegIdx → RegIdx → Result} (hk : ∀ r q, k' r q = mapNext g (k r q)) :
    withRegs a b (g s) k' = mapNext g (withRegs a b s k) :=
  withReg_mapNext hg fun r => withReg_mapNext hg (hk r)

/-- Every instruction does the same after a longer past; PRN appends to it as to the shorter one. -/
theorem exec_withPast (i : Instr) (s : State) (past : List Byte) :
    exec i (s.withPast past) = mapNext (State.withPast past) (exec i s) := by
  have hg (c : FaultCause) : (s.withPast past).setFault c = (s.setFault c).withPast past := rfl
  cases i with
  | hlt => rfl
  | ldi a v => exact withReg_mapNext hg fun _ => rfl
  | prn a =>
    refine withReg_mapNext hg fun r => ?_
    rw [State.withPast_output]
    rfl
  | st a b => exact withRegs_mapNext hg fun _ _ => by rw [memWrite_byte, memWrite_byte]; rfl
  | push a => exact withReg_mapNext hg fun _ => by rw [stackPush_eq, stackPush_eq]; rfl
  | pop a => exact withReg_mapNext hg fun _ => by rw [stackPop_eq, stackPop_eq]; rfl
  | call a =>
    refine withReg_mapNext hg fun _ => ?_
    have hpc' : (s.withPast past).pc = s.pc := rfl
    by_cases hpc : 255 < s.pc + 2
    · rw [hpc', if_pos hpc, if_pos hpc]; rfl
    · rw [hpc', if_neg hpc, if_neg hpc, stackPush_eq, stackPush_eq]; rfl
  | ret => rw [exec, exec, execRet_eq, execRet_eq]; rfl
  | add a b => exact withRegs_mapNext hg fun _ _ => rfl
  | mul a b => exact withRegs_mapNext hg fun _ _ => rfl
  | and a b => exact withRegs_mapNext hg fun _ _ => rfl
  | cmp a b => exact withRegs_mapNext hg fun _ _ => rfl

theorem step_withPast (s : State) (past : List Byte) :
    step (s.withPast past) = mapNext (State.withPast past) (step s) := by
  have hfetch : fetch (s.withPast past) = fetch s := rfl
  have hfault : (s.withPast past).fault = s.fault := rfl
  have hrun : (s.withPast past).run = s.run := rfl
  simp only [step, stepEnabled, hfetch, hfault, hrun]
  cases s.fault with
  | some c => rfl
  | none =>
    cases s.run with
    | false => rfl
    | true =>
      cases fetch s with
      | error c => rfl
      | ok i => exact exec_withPast i s past

theorem runSteps_withPast (k : Nat) (s : State) (past : List Byte) :
    runSteps k (s.withPast past) = (runSteps k s).withPast past := by
  induction k generalizing s with
  | zero => rfl
  | succ k ih =>
    rw [runSteps, runSteps, step_withPast]
    cases step s with
    | next t => exact ih t
    | fault r => rfl
    | refused r => rfl

/-- Settles O44: both runs are the run from the empty history with a past put before it, and what that run outputs is
what both append. -/
theorem outputHistoryInfluencesNothing : Obligations.OutputHistoryInfluencesNothing := by
  intro s o k
  have hrun (past : List Byte) :
      runSteps k { s with out := past } = (runSteps k { s with out := [] }).withPast past := by
    rw [← runSteps_withPast, State.withPast, List.append_nil]
  refine ⟨(runSteps k { s with out := [] }).out, ?_, ?_⟩
  · rw [hrun s.out]
    rfl
  · rw [hrun o, hrun s.out]
    rfl

end Sys2Proof.Machine
end

section
/-! The flags along a run (R32). -/

namespace Sys2Proof.Machine

/-- A CMP executes within the first `k` steps from `s`. -/
def ComparesWithin (k : Nat) (s : State) : Prop :=
  ∃ (j : Nat) (u v : State), j < k ∧ Steps j s u ∧ step u = .next v ∧ u.cell u.pc = 0xA7 ∧ v.fault = none

/-- One of the three values a comparison leaves in fl (R174). -/
def IsComparison (f : Byte) : Prop := f = 0x01 ∨ f = 0x02 ∨ f = 0x04

theorem comparesWithin_succ_iff {s t : State} (h : step s = .next t) (k : Nat) :
    ComparesWithin (k + 1) s ↔ (s.cell s.pc = 0xA7 ∧ t.fault = none) ∨ ComparesWithin k t := by
  constructor
  · rintro ⟨j, u, v, hj, hu, hv, hcmp⟩
    cases j with
    | zero =>
      obtain rfl : u = s := hu
      obtain rfl := Host.Outcome.next.inj (h.symm.trans hv)
      exact .inl hcmp
    | succ j =>
      obtain ⟨t', ht', hu⟩ := hu
      obtain rfl := Host.Outcome.next.inj (h.symm.trans ht')
      exact .inr ⟨j, u, v, by omega, hu, hv, hcmp⟩
  · rintro (hcmp | ⟨j, u, v, hj, hu, hrest⟩)
    · exact ⟨0, s, t, by omega, rfl, h, hcmp⟩
    · exact ⟨j + 1, u, v, by omega, ⟨t, h, hu⟩, hrest⟩

theorem isComparison_of_step_cmp {s t : State} (h : step s = .next t) (hcmp : s.cell s.pc = 0xA7 ∧ t.fault = none) :
    IsComparison t.fl := by
  obtain ⟨p, q, hfl⟩ := fl_of_step_cmp h hcmp.1 hcmp.2
  rw [hfl]
  exact compareFlags_eq_one_two_or_four p q

theorem isComparison_of_step {s t : State} (h : step s = .next t) (hs : IsComparison s.fl) : IsComparison t.fl := by
  by_cases hcmp : s.cell s.pc = 0xA7 ∧ t.fault = none
  · exact isComparison_of_step_cmp h hcmp
  · rwa [fl_of_step_not_cmp h hcmp]

theorem isComparison_of_steps {k : Nat} {s t : State} (h : Steps k s t) (hs : IsComparison s.fl) : IsComparison t.fl := by
  induction k generalizing s with
  | zero => cases h; exact hs
  | succ k ih =>
    obtain ⟨u, hu, hrest⟩ := h
    exact ih hrest (isComparison_of_step hu hs)

theorem isComparison_of_comparesWithin {k : Nat} {s t : State} (h : Steps k s t) (hcmp : ComparesWithin k s) :
    IsComparison t.fl := by
  induction k generalizing s with
  | zero =>
    obtain ⟨j, _, _, hj, _⟩ := hcmp
    exact absurd hj (Nat.not_lt_zero j)
  | succ k ih =>
    obtain ⟨u, hu, hrest⟩ := h
    rcases (comparesWithin_succ_iff hu k).1 hcmp with hnow | hlater
    · exact isComparison_of_steps hrest (isComparison_of_step_cmp hu hnow)
    · exact ih hrest hlater

theorem fl_of_not_comparesWithin {k : Nat} {s t : State} (h : Steps k s t) (hcmp : ¬ ComparesWithin k s) :
    t.fl = s.fl := by
  induction k generalizing s with
  | zero => cases h; rfl
  | succ k ih =>
    obtain ⟨u, hu, hrest⟩ := h
    rw [comparesWithin_succ_iff hu, not_or] at hcmp
    exact (ih hrest hcmp.2).trans (fl_of_step_not_cmp hu hcmp.1)

/-- Settles O17: fl starts at RESET_FL, every step but a CMP keeps it, and a CMP puts it among the three values, where every
later step leaves it. -/
theorem flagValuesAlongRun : Obligations.FlagValuesAlongRun := by
  intro p bytes s₀ hlaunch k t hsteps
  obtain ⟨-, rfl⟩ := load_cases hlaunch
  refine ⟨fun hno => ?_, isComparison_of_comparesWithin hsteps⟩
  exact fl_of_not_comparesWithin hsteps fun ⟨j, u, v, hj, hu, hv, hcmp⟩ => hno j u v hj hu hv hcmp

end Sys2Proof.Machine
end

section
/-! Reset, load, and the views from outside (R39, R196, R212, R226). -/

namespace Sys2Proof.Machine

/-! ### Reset -/

section
variable (p : ResetParams)

theorem resetWith_x_sp : (resetWith p).x sp = Config.spReset := by
  simp [State.x, resetWith]

theorem resetWith_x_of_lt {i : Nat} (h : i < 7) : (resetWith p).x ⟨i, by omega⟩ = p.gpr[i] :=
  Vector.getElem_push_lt h

theorem resetWith_cell {a : Nat} (h : a < 256) : (resetWith p).cell a = p.initMem[a] := by
  have hlen : p.initMem.toList.length = 256 := p.initMem.length_toList
  refine (Memory.read_place [] 0 p.initMem.toList a).trans ?_
  rw [dif_pos ⟨Nat.zero_le a, by omega, by omega⟩]
  simp

end

/-- Settles O45: the registers are RESET_GPR with SP_RESET after them, the cells are INIT_MEM placed from address 0, and the
other pieces are the fixed values of reset. -/
theorem resetSetsEveryPiece : Obligations.ResetSetsEveryPiece := fun p =>
  ⟨rfl, resetWith_x_sp p, fun _ h => resetWith_x_of_lt p h, rfl, fun _ h => resetWith_cell p h, rfl, rfl, rfl⟩

/-- The model's reset memory lists nothing, and its choice of INIT_MEM is what an unlisted address reads as. -/
theorem reset_mem_eq_resetWith_mem : State.reset.mem = (resetWith Config.resetParams).mem := by
  have hwf := (resetAndLoadMeetInvariant.1 Config.resetParams).memCanonical
  refine canonicalMemoryIsUnique _ _ Memory.reset_wf hwf fun a ha => ?_
  refine Eq.trans ?_ (resetWith_cell Config.resetParams (Nat.lt_succ_of_le ha)).symm
  simp [Config.resetParams, State.reset, Memory.read]

/-- Settles O46: both memories are canonical and read alike, so they are the same list; the other pieces are equal as they
stand. -/
theorem modelResetIsOneChoice : Obligations.ModelResetIsOneChoice :=
  calc State.reset = { resetWith Config.resetParams with mem := State.reset.mem } := rfl
    _ = resetWith Config.resetParams := by rw [reset_mem_eq_resetWith_mem]

/-! ### Load -/

theorem load_of_le {bytes : List Byte} (h : bytes.length ≤ 256) (s : State) :
    load bytes s = .next { s with mem := Memory.place s.mem Config.loadBase bytes } := if_pos h

theorem load_of_gt {bytes : List Byte} (h : 256 < bytes.length) (s : State) :
    load bytes s = .refused (.loadTooLong bytes.length) := if_neg (by omega)

/-- Settles O47: the load places its bytes from address 0, so an address below their number reads its byte and any other
what reset left there. -/
theorem loadWritesFromAddressZero : Obligations.LoadWritesFromAddressZero := by
  intro p bytes
  refine ⟨fun hlen => ⟨_, load_of_le hlen _, fun j hj => ?loaded, fun a ha hlast => ?beyond, rfl⟩, fun hlen => ?tooLong⟩
  case loaded =>
    refine (Memory.read_place _ 0 bytes j).trans ?_
    exact dif_pos ⟨Nat.zero_le j, by omega, hj⟩
  case beyond =>
    refine ((Memory.read_place _ 0 bytes a).trans (dif_neg ?_)).trans (resetWith_cell p ha)
    omega
  case tooLong => exact load_of_gt hlen _

/-! ### The views from outside -/

/-- Settles O50: the codes are the table's rows, and the status is the flag and the latch as they stand. -/
theorem faultCodesAndStatus : Obligations.FaultCodesAndStatus :=
  ⟨fun _ => ⟨rfl, rfl⟩, fun _ => ⟨rfl, rfl⟩, fun _ => ⟨rfl, rfl⟩, fun _ => ⟨rfl, rfl⟩, fun _ => ⟨rfl, rfl⟩, fun _ => rfl⟩

theorem debugByte_of_le {a : Nat} (h : a ≤ 255) (k : Nat) (s : State) : debugByte k s a = s.cell a := if_pos h

/-- Settles O51: each of the three bytes is the cell it looks at when that is within memory. -/
theorem debugViewShowsState : Obligations.DebugViewShowsState := by
  intro k s
  refine ⟨rfl, rfl, fun j hj hle => ?_, fun _ => rfl⟩
  have hbyte : (debugView k s).bytes[j] = debugByte k s (s.pc + j) := by
    match j, hj with
    | 0, _ => rfl
    | 1, _ => rfl
    | 2, _ => rfl
  rw [hbyte, debugByte_of_le hle]

end Sys2Proof.Machine
end
